-- ==== Sys2Proof/Word.lean ====
section
/-! DEFINITION. The words, bytes and indices of huffman_core, and the records its tables hold.

Widths are those of 00_scope.md R5. Every quantity is unsigned (R8). -/

namespace Sys2Proof

/-- A command or response word, 16 bits (30_encoding.md R70, R80). -/
abbrev Word := BitVec 16

/-- A symbol, a bit character, a register number or a response data byte (00_scope.md R10). -/
abbrev Byte := BitVec 8

/-- A node index, and the size of an alphabet (0..256): 9 bits (00_scope.md R5, 10_state.md R26). -/
abbrev NodeIdx := BitVec 9

/-- One entry of the node arena (10_state.md R27). `freq` is a count of `LEN_W` bits, held as a `Nat`. -/
structure Node where
  leaf  : Bool
  sym   : Byte
  freq  : Nat
  left  : NodeIdx
  right : NodeIdx
deriving DecidableEq, Repr, Inhabited

/-- One entry of the code table (10_state.md R30): `len` = 0 means absent; `bits` holds the steps from the
root, the first step first, `false` for bit 0 and `true` for bit 1. -/
structure CodeEntry where
  len  : Byte
  bits : List Bool
deriving DecidableEq, Repr, Inhabited

/-- A table with one entry per symbol (20_memory.md R50). -/
abbrev Table (α : Type) := Vector α 256

end Sys2Proof
end

