-- ==== Sys2Proof/Syntax.lean ====
section
/-! DEFINITION. The twelve commands, one constructor per row of spec/opcode_table.json (30_encoding.md R74). -/

namespace Sys2Proof

/-- A command. A format B command carries its operand byte as it stands (30_encoding.md R73). -/
inductive Instr where
  | nop
  | bldBegin
  | bldSym (sym : Byte)
  | bldEnd
  | encBegin
  | encSym (sym : Byte)
  | encEnd
  | decBegin
  | decBit (chr : Byte)
  | decEnd
  | rdCode (sym : Byte)
  | rdReg (reg : Byte)
deriving DecidableEq, Repr

end Sys2Proof
end

