-- ==== Sys2Proof/WellFormed.lean ====
section
/-! DEFINITION. Which command words are well formed (30_encoding.md R71, R72, R75), by arithmetic on the word.

A term of `Instr` needs no check: its only operand is a byte and all 256 values are legal (R73). What can be ill
formed is a command WORD, and there the spec names three grounds; each is one check here. The decoder is written
apart from these checks. -/

namespace Sys2Proof

/-- `w[15:12]`, as a number. -/
def wordOp (w : Word) : Nat := w.toNat / 4096

/-- `w[11:8]`, as a number. -/
def wordRsv (w : Word) : Nat := w.toNat / 256 % 16

/-- `w[7:0]`, as a number. -/
def wordArg (w : Word) : Nat := w.toNat % 256

/-- The opcodes of format Z, whose `arg` must be 0 (R74). -/
def formatZ (op : Nat) : Bool := op == 0 || op == 1 || op == 3 || op == 4 || op == 6 || op == 7 || op == 9

/-- First ground of R75: the opcode is not one of the reserved 0xC to 0xF. -/
def opcodeAssigned (w : Word) : Bool := wordOp w < 12

/-- Second ground of R75: the reserved field is 0. -/
def reservedZero (w : Word) : Bool := wordRsv w == 0

/-- Third ground of R75: a format Z command has no operand. -/
def operandAllowed (w : Word) : Bool := !formatZ (wordOp w) || wordArg w == 0

/-- The word is a command (R75). -/
def wellFormedWord (w : Word) : Bool := opcodeAssigned w && reservedZero w && operandAllowed w

end Sys2Proof
end

