-- ==== Sys2Proof/Decode.lean ====
section
/-! DEFINITION. The decoder of command words, total on all 65536 words, and the encoder
(30_encoding.md R70 to R77). -/

namespace Sys2Proof

/-- Why a word is no command; one constructor per ground of R75. All three raise F_ILLEGAL. -/
inductive IllegalWord where
  /-- `op` is 0xC, 0xD, 0xE or 0xF. -/
  | reservedOpcode
  /-- `rsv` is not 0. -/
  | reservedField
  /-- A format Z command with `arg` not 0. -/
  | operandInFormatZ
deriving DecidableEq, Repr

/-- `op` = `w[15:12]` (R71). -/
def opField (w : Word) : BitVec 4 := w.extractLsb' 12 4

/-- `rsv` = `w[11:8]` (R71). -/
def rsvField (w : Word) : BitVec 4 := w.extractLsb' 8 4

/-- `arg` = `w[7:0]` (R71). -/
def argField (w : Word) : Byte := w.extractLsb' 0 8

/-- A format Z command: the operand field must be 0 (R72). -/
def formatZWord (i : Instr) (arg : Byte) : Except IllegalWord Instr :=
  if arg = 0 then .ok i else .error .operandInFormatZ

/-- The decoder (R77 step 1, with the opcode map R74). -/
def decode (w : Word) : Except IllegalWord Instr :=
  if rsvField w ≠ 0 then .error .reservedField
  else
    let arg := argField w
    match (opField w).toNat with
    | 0x0 => formatZWord .nop arg
    | 0x1 => formatZWord .bldBegin arg
    | 0x2 => .ok (.bldSym arg)
    | 0x3 => formatZWord .bldEnd arg
    | 0x4 => formatZWord .encBegin arg
    | 0x5 => .ok (.encSym arg)
    | 0x6 => formatZWord .encEnd arg
    | 0x7 => formatZWord .decBegin arg
    | 0x8 => .ok (.decBit arg)
    | 0x9 => formatZWord .decEnd arg
    | 0xA => .ok (.rdCode arg)
    | 0xB => .ok (.rdReg arg)
    | _   => .error .reservedOpcode

/-- A command word from its opcode and operand byte, reserved field 0 (R71, R72). -/
def commandWord (op : BitVec 4) (arg : Byte) : Word := op ++ 0#4 ++ arg

/-- The encoder (opcode map R74). -/
def encode : Instr → Word
  | .nop        => commandWord 0x0 0
  | .bldBegin   => commandWord 0x1 0
  | .bldSym s   => commandWord 0x2 s
  | .bldEnd     => commandWord 0x3 0
  | .encBegin   => commandWord 0x4 0
  | .encSym s   => commandWord 0x5 s
  | .encEnd     => commandWord 0x6 0
  | .decBegin   => commandWord 0x7 0
  | .decBit c   => commandWord 0x8 c
  | .decEnd     => commandWord 0x9 0
  | .rdCode s   => commandWord 0xA s
  | .rdReg r    => commandWord 0xB r

/-- The command word that the low `nbits` bits of `w` make, bits above them 0. Words are transferred whole, so
they have no byte order (20_memory.md R52 (e)). -/
def tableWord (nbits w : Nat) : Word := BitVec.ofNat 16 (w % 2 ^ nbits)

/-- What the decoder reads from the instruction whose bits are `w`, numbered as spec/opcode_table.json numbers
them. -/
def decodeTableWord (nbits w : Nat) : Option Instr :=
  match decode (tableWord nbits w) with
  | .ok i => some i
  | .error _ => none

end Sys2Proof
end

