-- ==== Sys2Proof/Config.lean ====
section
/-! DEFINITION. What an instance of huffman_core fixes, and the one free value.

`LEN_W` is the only parameter of the block (00_scope.md R5). -/

namespace Sys2Proof

/-- The legal values of the parameter `LEN_W`: a multiple of 8 from 8 to 64 (00_scope.md R5, D15). -/
inductive LenW where
  | w8 | w16 | w24 | w32 | w40 | w48 | w56 | w64
deriving DecidableEq, Repr

/-- `LEN_W` / 8: the number of `TEXTLEN` byte registers (10_state.md R35). -/
def LenW.bytes : LenW → Nat
  | .w8 => 1 | .w16 => 2 | .w24 => 3 | .w32 => 4 | .w40 => 5 | .w48 => 6 | .w56 => 7 | .w64 => 8

/-- `LEN_W` in bits. -/
def LenW.bits (w : LenW) : Nat := 8 * w.bytes

/-- `LEN_MAX` = 2^`LEN_W` - 1, the longest text of one build frame (00_scope.md R5). -/
def LenW.lenMax (w : LenW) : Nat := 2 ^ w.bits - 1

/-- FREE VALUE. What the arena holds at an index at or above `NNODE`. Such an entry "has no architectural
value" (10_state.md R27) and may be "any value" (93_implementation_defined.md I10), so nothing constrains it.
No state that meets the machine's invariant reads it. Log entry 4. -/
opaque Config.freeNode : NodeIdx → Node

end Sys2Proof
end

