-- ==== Sys2Proof/Machine/State.lean ====
section
/-! DEFINITION. The state of huffman_core as plain data, and its value right after reset.

The eleven elements of the block are those of 10_state.md R20. `lenW`, `host` and `rsp` are the model's own
fields (log entries 1, 2, 6): R40 says the parameter and the two streams are not state of the block. -/

namespace Sys2Proof.Machine

/-- `MODE`, 2 bits: which frame is open (10_state.md R21). -/
inductive Mode where
  | idle | build | encode | decode
deriving DecidableEq, Repr

/-- The status codes, the values of `ERR` (30_encoding.md R82). -/
inductive Status where
  /-- Code 0: the frame completed. -/
  | ok
  /-- Code 1, E_EMPTY (60_exceptions.md R191). -/
  | empty
  /-- Code 2, E_NOSYM (R192). -/
  | noSym
  /-- Code 3, E_BADBIT (R193). -/
  | badBit
  /-- Code 4, E_TRUNC (R194). -/
  | trunc
  /-- Code 5, E_NOCODE (R195). -/
  | noCode
  /-- Code 6, E_CAPACITY (R196). -/
  | capacity
deriving DecidableEq, Repr

/-- The three faults of the block's own command interface (30_encoding.md R83). They are ordinary next states of
the machine (60_exceptions.md R204), not stops. -/
inductive CmdFault where
  /-- Code 1, F_ILLEGAL (R197). -/
  | illegal
  /-- Code 2, F_SEQ (R198). -/
  | seq
  /-- Code 3, F_REG (R199). -/
  | reg
deriving DecidableEq, Repr

/-- The six response kinds (30_encoding.md R81). -/
inductive RspKind where
  | bit | sym | status | fault | len | reg
deriving DecidableEq, Repr

/-- What the host may do to the block (70_reset_and_hazards.md R231). -/
inductive HostAct where
  /-- Send one command word. -/
  | cmd (w : Word)
  /-- Take the oldest response word (30_encoding.md R90). -/
  | take
  /-- Assert reset (R220, R222). -/
  | rst
deriving DecidableEq, Repr

/-- The whole machine. -/
structure State where
  /-- The parameter `LEN_W` of the instance (00_scope.md R5); no step writes it. -/
  lenW    : LenW
  /-- `MODE` (R21). -/
  mode    : Mode
  /-- `ERR`, 4 bits (R22). -/
  err     : BitVec 4
  /-- `FAULT`, 2 bits (R23). -/
  fault   : BitVec 2
  /-- `FREQ[0..255]`, `LEN_W` bits each (R24). -/
  freq    : Table Nat
  /-- `WLEN`, `LEN_W` bits (R25). -/
  wlen    : Nat
  /-- `NSYM`, 9 bits (R26). -/
  nsym    : NodeIdx
  /-- `NODE[0..NNODE-1]` (R27): the list's length is `NNODE`. -/
  node    : List Node
  /-- `ROOT`, 9 bits (R28). -/
  root    : NodeIdx
  /-- `TEXTLEN`, `LEN_W` bits (R29). -/
  textLen : Nat
  /-- `CODE[0..255]` (R30). -/
  code    : Table CodeEntry
  /-- `CUR`, 9 bits (R31). -/
  cur     : NodeIdx
  /-- What the host has yet to do, in order (20_memory.md R60). -/
  host    : List HostAct
  /-- The response words emitted and not yet taken, oldest first (30_encoding.md R90; log entry 6). -/
  rsp     : List Word
deriving DecidableEq, Repr

/-- The reasons the machine stops with a fault: none. "The block has no stuck state and no hang"
(60_exceptions.md R209), and every command completes (70_reset_and_hazards.md R233), so this type has no
constructor; nobody raises it. Log entry 8. -/
inductive Fault where
deriving DecidableEq, Repr

/-- The reasons the machine refuses an instruction. -/
inductive Refusal where
  /-- Raised by an arm of `exec` whose instruction has no meaning in the model. Safe: the run stops. No arm
  raises it: all twelve commands have their meaning. -/
  | notModelled (mnemonic : String)
deriving DecidableEq, Repr

/-- An absent entry of the code table (10_state.md R30). -/
def CodeEntry.absent : CodeEntry := ⟨0, []⟩

/-- The state after reset of an instance with parameter `w` (10_state.md R41, 70_reset_and_hazards.md R221),
with no act of the host pending (log entry 1). -/
def State.resetWith (w : LenW) : State where
  lenW    := w
  mode    := .idle
  err     := 0
  fault   := 0
  freq    := Vector.replicate 256 0
  wlen    := 0
  nsym    := 0
  node    := []
  root    := 0
  textLen := 0
  code    := Vector.replicate 256 CodeEntry.absent
  cur     := 0
  host    := []
  rsp     := []

/-- The machine right after reset, with the default `LEN_W` = 32 (00_scope.md R5; log entry 2). -/
def State.reset : State := State.resetWith .w32

end Sys2Proof.Machine
end

