-- ==== Sys2Proof/Machine/Ops.lean ====
section
/-! DEFINITION. The named operations over the state that the meanings share: table access, counts, node reads,
responses, frame errors, faults, opening and closing a frame, publication, and the host's own acts. -/

namespace Sys2Proof.Machine

/-! ### Tables (20_memory.md R50, R53: an index is a symbol, always in range) -/

/-- Entry `s` of a table. -/
def tableGet {α : Type} (t : Table α) (s : Byte) : α := t[s.toNat]'(by have := s.isLt; omega)

/-- The table with entry `s` replaced. -/
def tableSet {α : Type} (t : Table α) (s : Byte) (v : α) : Table α :=
  t.set s.toNat v (by have := s.isLt; omega)

/-- All symbols, in ascending order (40_tree_builder.md R104). -/
def allSymbols : List Byte := (List.range 256).map (BitVec.ofNat 8)

/-! ### Counts -/

/-- Unsigned addition of two counts of `LEN_W` bits: the exact sum, narrowed to the width. Under the machine's
invariant the narrowing never changes the sum (40_tree_builder.md R102, R112). Log entry 3. -/
def addCount (w : LenW) (a b : Nat) : Nat := (a + b) % 2 ^ w.bits

/-! ### The node arena -/

/-- `NODE[k]` (10_state.md R27). At or above `NNODE` there is no entry, and the answer is the free value. -/
def nodeAt (ns : List Node) (k : NodeIdx) : Node :=
  match ns[k.toNat]? with
  | some n => n
  | none   => Config.freeNode k

/-- The child of a node selected by a bit: `left` for 0, `right` for 1 (43_decoder.md R154). -/
def child (n : Node) (b : Bool) : NodeIdx := if b then n.right else n.left

/-! ### Responses (30_encoding.md R80, R81) -/

/-- The code of a response kind (R81). -/
def kindCode : RspKind → BitVec 4
  | .bit => 1 | .sym => 2 | .status => 3 | .fault => 4 | .len => 5 | .reg => 6

/-- The response word of a kind with its data byte: kind, 0000, data (R80). -/
def rspWord (k : RspKind) (d : Byte) : Word := kindCode k ++ 0#4 ++ d

/-- `emit R_X(d)`: append one response word (00_scope.md R9). -/
def emit (k : RspKind) (d : Byte) (s : State) : State := { s with rsp := s.rsp ++ [rspWord k d] }

/-- Emit one word of a kind for each data byte, in order. -/
def emitAll (k : RspKind) (ds : List Byte) (s : State) : State := { s with rsp := s.rsp ++ ds.map (rspWord k) }

/-! ### Frame errors and faults (60_exceptions.md) -/

/-- The code of a status (30_encoding.md R82). -/
def statusCode : Status → BitVec 4
  | .ok => 0 | .empty => 1 | .noSym => 2 | .badBit => 3 | .trunc => 4 | .noCode => 5 | .capacity => 6

/-- The code of a fault (30_encoding.md R83). -/
def faultCode : CmdFault → BitVec 2
  | .illegal => 1 | .seq => 2 | .reg => 3

/-- `frame_error(c)`: `ERR <- c` and nothing else (60_exceptions.md R203). -/
def frameError (c : Status) (s : State) : State := { s with err := statusCode c }

/-- TAKING A FAULT, `raise Fault(c)`: `FAULT <- c; emit R_FAULT(c)` and nothing else (60_exceptions.md R204).
There is no return from it: "A fault needs no return: the next command is executed normally" (R205). -/
def raiseFault (c : CmdFault) (s : State) : State :=
  emit .fault ((faultCode c).setWidth 8) { s with fault := faultCode c }

/-! ### Frames -/

/-- A BEGIN command opens its frame: `MODE <- m; ERR <- 0` (10_state.md R21, R22). -/
def openFrame (m : Mode) (s : State) : State := { s with mode := m, err := 0 }

/-- THE RETURN FROM A FRAME ERROR: the END command reports `ERR` in one `R_STATUS` word and sets `MODE` to `IDLE`;
`ERR` keeps its value (60_exceptions.md R205). -/
def closeFrame (s : State) : State :=
  let t := emit .status (s.err.setWidth 8) s
  { t with mode := .idle }

/-- A data command while a frame error is pending is accepted and ignored (60_exceptions.md R203). -/
def unlessError (body : State → State) (s : State) : State := if s.err ≠ 0 then s else body s

/-- A command legal only in mode `m`: elsewhere it is rejected with F_SEQ (30_encoding.md R77 step 2, R78). -/
def inMode (m : Mode) (body : State → State) (s : State) : Host.Outcome State Fault Refusal :=
  if s.mode = m then .next (body s) else .next (raiseFault .seq s)

/-- Publication: a successful `BLD_END` replaces the whole published state and the cursor in one step
(40_tree_builder.md R113). -/
def publish (n : NodeIdx) (ns : List Node) (r : NodeIdx) (len : Nat) (c : Table CodeEntry) (s : State) : State :=
  { s with nsym := n, node := ns, root := r, textLen := len, code := c, cur := r }

/-! ### The host's acts -/

/-- Reset (70_reset_and_hazards.md R220 to R222): every element of the block at its reset value, the untaken
responses discarded. The parameter of the instance stays, and so does what the host does afterwards (log entry 7). -/
def hostReset (s : State) : State := { State.resetWith s.lenW with host := s.host }

/-- The host takes the oldest response word; with none there, nothing moves (30_encoding.md R89, R90; log entry 7). -/
def takeResponse (s : State) : State := { s with rsp := s.rsp.tail }

/-- Where a command word is placed so that it is the next one executed: at the head of the host's acts, since the
block fetches nothing and executes what the host sends (10_state.md R33; log entry 10). -/
def offerWord (w : Word) (s : State) : State := { s with host := .cmd w :: s.host }

end Sys2Proof.Machine
end

