-- ==== Sys2Proof/Machine/Operands.lean ====
section
/-! DEFINITION. How operand bytes are read (30_encoding.md R73, R84), and the codes as bit characters.

An operand byte is used as it stands: not sign-extended, not scaled, not shifted (R73). As a symbol it indexes a
table directly; as a register number it is read by Flags.lean; as a bit character it is read here. -/

namespace Sys2Proof.Machine

/-- The bit character of a bit: 0x30 + b (30_encoding.md R84). -/
def bitChar (b : Bool) : Byte := if b then 0x31 else 0x30

/-- The bit a bit character stands for; every other byte stands for none (43_decoder.md R150). -/
def charBit (c : Byte) : Option Bool :=
  if c = 0x30 then some false else if c = 0x31 then some true else none

/-- `CODE[s].bits[i]` for i = 0 .. `len` - 1. In storage the positions the list does not hold are 0
(10_state.md R30; log entry 5). -/
def codeBits (e : CodeEntry) : List Bool := (List.range e.len.toNat).map fun i => e.bits.getD i false

/-- The bit characters of a code, the first step from the root first (41_code_table.md R126, 42_encoder.md R137). -/
def codeChars (e : CodeEntry) : List Byte := (codeBits e).map bitChar

end Sys2Proof.Machine
end

