-- ==== Sys2Proof/Machine/Flags.lean ====
section
/-! DEFINITION. The derived status bits and the register map (10_state.md R34, R35). -/

namespace Sys2Proof.Machine

/-- The two bits of `MODE` (R21). -/
def modeCode : Mode → BitVec 2
  | .idle => 0 | .build => 1 | .encode => 2 | .decode => 3

/-- `NONEMPTY`: `NSYM` >= 1 (R34). -/
def flagNonempty (s : State) : Bool := 1 ≤ s.nsym.toNat

/-- `SINGLE`: `NSYM` = 1 (R34). -/
def flagSingle (s : State) : Bool := s.nsym.toNat == 1

/-- `ATROOT`: `CUR` = `ROOT` (R34). -/
def flagAtRoot (s : State) : Bool := s.cur == s.root

/-- The `STATUS` byte: 000, `ATROOT`, `SINGLE`, `NONEMPTY`, `MODE` (R35). -/
def statusByte (s : State) : Byte :=
  0#3 ++ BitVec.ofBool (flagAtRoot s) ++ BitVec.ofBool (flagSingle s) ++ BitVec.ofBool (flagNonempty s)
    ++ modeCode s.mode

/-- Byte `i` of a 9-bit register read over two register numbers: bits 7:0, then bit 8 (R35). -/
def lowByte (v : NodeIdx) : Byte := v.extractLsb' 0 8

/-- Bit 8 of a 9-bit register, in bit 0 of a byte (R35). -/
def highByte (v : NodeIdx) : Byte := (v.extractLsb' 8 1).setWidth 8

/-- `TEXTLEN[8i+7 : 8i]`, the least significant byte first (R35, 20_memory.md R52 (d)). -/
def textLenByte (len i : Nat) : Byte := BitVec.ofNat 8 (len / 2 ^ (8 * i))

/-- The byte of register number `r`; `none` for an unassigned number (R35). -/
def regRead (r : Byte) (s : State) : Option Byte :=
  match r.toNat with
  | 0 => some (statusByte s)
  | 1 => some (s.err.setWidth 8)
  | 2 => some (s.fault.setWidth 8)
  | 3 => some (lowByte s.nsym)
  | 4 => some (highByte s.nsym)
  | 5 => some (lowByte s.root)
  | 6 => some (highByte s.root)
  | 7 => none
  | n => if n - 8 < s.lenW.bytes then some (textLenByte s.textLen (n - 8)) else none

end Sys2Proof.Machine
end

