-- ==== Sys2Proof/Machine/CodeTable.lean ====
section
/-! DEFINITION. huffman_code_table_rom: the derivation of the code table by traversal, and `RD_CODE`
(41_code_table.md). -/

namespace Sys2Proof.Machine

/-- A stored code: its length and its bits (10_state.md R30). -/
def codeOf (p : List Bool) : CodeEntry := ⟨BitVec.ofNat 8 p.length, p⟩

/-- The table with every symbol absent (41_code_table.md R123). -/
def noCodes : Table CodeEntry := Vector.replicate 256 CodeEntry.absent

/-- The traversal loop of 41_code_table.md R121: depth first, left before right, an explicit stack of pairs
(node index, accumulated code). The first argument bounds the number of pops. -/
def traverse (ns : List Node) : Nat → List (NodeIdx × List Bool) → Table CodeEntry → Table CodeEntry
  | 0, _, c => c
  | _ + 1, [], c => c
  | f + 1, (k, p) :: st, c =>
    let nd := nodeAt ns k
    if nd.leaf then traverse ns f st (tableSet c nd.sym (codeOf p))
    else traverse ns f ((nd.left, p ++ [false]) :: (nd.right, p ++ [true]) :: st) c

/-- `derive_codes(n, N, r)` (41_code_table.md R121 to R123). Each of the arena's nodes is popped once, so its
length bounds the pops. -/
def deriveCodes (n : Nat) (ns : List Node) (r : NodeIdx) : Table CodeEntry :=
  if n = 0 then noCodes
  else if n = 1 then tableSet noCodes (nodeAt ns 0).sym (codeOf [false])
  else traverse ns ns.length [(r, [])] noCodes

/-- What `RD_CODE s` emits: one `R_LEN` word, then the code's `R_BIT` words (R126). -/
def emitCode (e : CodeEntry) (s : State) : State := emitAll .bit (codeChars e) (emit .len e.len s)

/-- `RD_CODE s`: read one entry of the code table (41_code_table.md R126). -/
def execRdCode (sym : Byte) (s : State) : Host.Outcome State Fault Refusal :=
  inMode .idle (fun s => emitCode (tableGet s.code sym) s) s

end Sys2Proof.Machine
end

