-- ==== Sys2Proof/Machine/Decoder.lean ====
section
/-! DEFINITION. huffman_decoder: the bitstream-to-symbol state machine (43_decoder.md). -/

namespace Sys2Proof.Machine

/-- `DEC_BEGIN`: open a decode frame and put the cursor at the root (R151). -/
def execDecBegin (s : State) : Host.Outcome State Fault Refusal :=
  inMode .idle (fun s =>
    let t := openFrame .decode s
    { t with cur := s.root }) s

/-- One bit under a single-leaf tree: 0 emits the symbol, 1 continues no code (R155). -/
def decodeSingle (b : Bool) (s : State) : State :=
  if b then frameError .noCode s else emit .sym (nodeAt s.node s.root).sym s

/-- One bit under a tree of two leaves or more: walk to the child; at a leaf emit its symbol and go back to the
root (R152). -/
def decodeWalk (b : Bool) (s : State) : State :=
  let k := child (nodeAt s.node s.cur) b
  let nd := nodeAt s.node k
  if nd.leaf then
    let t := emit .sym nd.sym s
    { t with cur := s.root }
  else { s with cur := k }

/-- One character of the bitstream: E_EMPTY before E_BADBIT before E_NOCODE (R152, 60_exceptions.md R202). -/
def decodeChar (chr : Byte) (s : State) : State :=
  if s.nsym = 0 then frameError .empty s
  else
    match charBit chr with
    | none => frameError .badBit s
    | some b => if s.nsym = 1 then decodeSingle b s else decodeWalk b s

/-- `DEC_BIT c`: consume one character of the bitstream (R152). -/
def execDecBit (chr : Byte) (s : State) : Host.Outcome State Fault Refusal :=
  inMode .decode (unlessError (decodeChar chr)) s

/-- The end-of-input test: E_TRUNC when no error is pending and the cursor is not at the root (R153). -/
def checkTruncation (s : State) : State :=
  if s.err = 0 ∧ s.cur ≠ s.root then frameError .trunc s else s

/-- `DEC_END`: check for truncation, report, cursor to the root, close the frame (R153). -/
def execDecEnd (s : State) : Host.Outcome State Fault Refusal :=
  inMode .decode (fun s =>
    let t := closeFrame (checkTruncation s)
    { t with cur := s.root }) s

end Sys2Proof.Machine
end

