-- ==== Sys2Proof/Machine/Encoder.lean ====
section
/-! DEFINITION. huffman_encoder: symbol to bitstream (42_encoder.md). -/

namespace Sys2Proof.Machine

/-- `ENC_BEGIN`: open an encode frame (R136). -/
def execEncBegin (s : State) : Host.Outcome State Fault Refusal :=
  inMode .idle (openFrame .encode) s

/-- Emit the code of one symbol, or record why it has none: E_EMPTY before E_NOSYM (R137, 60_exceptions.md R202). -/
def encodeSymbol (sym : Byte) (s : State) : State :=
  if s.nsym = 0 then frameError .empty s
  else if (tableGet s.code sym).len = 0 then frameError .noSym s
  else emitAll .bit (codeChars (tableGet s.code sym)) s

/-- `ENC_SYM s`: emit the code of one symbol (R137). -/
def execEncSym (sym : Byte) (s : State) : Host.Outcome State Fault Refusal :=
  inMode .encode (unlessError (encodeSymbol sym)) s

/-- `ENC_END`: report the status of the frame and close it (R138). -/
def execEncEnd (s : State) : Host.Outcome State Fault Refusal :=
  inMode .encode closeFrame s

end Sys2Proof.Machine
end

