-- ==== Sys2Proof/Machine/System.lean ====
section
/-! DEFINITION. The two commands that belong to no sub-block: `NOP` and `RD_REG` (44_system.md). -/

namespace Sys2Proof.Machine

/-- `NOP`: do nothing, in every mode (R170). -/
def execNop (s : State) : Host.Outcome State Fault Refusal := .next s

/-- `RD_REG r`: read one byte of status, in every mode; an unassigned number raises F_REG (R171). -/
def execRdReg (reg : Byte) (s : State) : Host.Outcome State Fault Refusal :=
  match regRead reg s with
  | none   => .next (raiseFault .reg s)
  | some v => .next (emit .reg v s)

end Sys2Proof.Machine
end

