-- ==== Sys2Proof/Machine/TreeBuilder.lean ====
section
/-! DEFINITION. huffman_tree_builder: the frequency counter and the merge engine (40_tree_builder.md). -/

namespace Sys2Proof.Machine

/-! ### The merge engine, step by step -/

/-- The leaf of a symbol with its count (R104). -/
def leafNode (s : Byte) (f : Nat) : Node := { leaf := true, sym := s, freq := f, left := 0, right := 0 }

/-- `enumerate_leaves`: one leaf per symbol with a count, in ascending order of symbol (R104). -/
def enumerateLeaves (freq : Table Nat) : List Node :=
  allSymbols.filterMap fun s => if 1 ≤ tableGet freq s then some (leafNode s (tableGet freq s)) else none

/-- The key of a node in the priority collection: its frequency, then its index (R106). The collection is held as
the list of its nodes' keys (log entry 11). -/
abbrev Key := Nat × Nat

/-- The comparison of R106: first by frequency, then by index. -/
def keyLt (a b : Key) : Bool := a.1 < b.1 || (a.1 == b.1 && a.2 < b.2)

/-- Remove the least key of the collection (R106): that key and the collection without it. -/
def popMin : List Key → Option (Key × List Key)
  | [] => none
  | k :: ks =>
    match popMin ks with
    | none => some (k, [])
    | some (m, rest) => if keyLt k m then some (k, ks) else some (m, k :: rest)

/-- The internal node that merges the nodes of two keys: the first removed is the `left` child, the second the
`right` one, the frequency their sum (R105, R108). -/
def mergeNode (w : LenW) (i j : Key) : Node :=
  { leaf := false, sym := 0, freq := addCount w i.1 j.1,
    left := BitVec.ofNat 9 i.2, right := BitVec.ofNat 9 j.2 }

/-- One turn of the merge loop's body on two removed keys: the new node goes to the end of the arena and its key
into the collection (R105). -/
def mergePair (w : LenW) (ns : List Node) (q : List Key) (i j : Key) : List Node × List Key :=
  let m := mergeNode w i j
  (ns ++ [m], q ++ [(m.freq, ns.length)])

/-- The merge loop of R105, while the collection has two nodes or more. The first argument bounds the turns. -/
def mergeLoop (w : LenW) : Nat → List Node → List Key → List Node × List Key
  | 0, ns, q => (ns, q)
  | f + 1, ns, q =>
    match popMin q with
    | none => (ns, q)
    | some (i, q₁) =>
      match popMin q₁ with
      | none => (ns, q)
      | some (j, q₂) => mergeLoop w f (mergePair w ns q₂ i j).1 (mergePair w ns q₂ i j).2

/-- The collection the loop starts from: every leaf, in index order (R105, R107). -/
def initialKeys (leaves : List Node) : List Key := leaves.mapIdx fun k nd => (nd.freq, k)

/-- The root: the one node left in the collection; 0 by convention when there is none (R105, R109). -/
def rootOf : List Key → NodeIdx
  | [] => 0
  | k :: _ => BitVec.ofNat 9 k.2

/-- `merge(n, N)`: the arena and the root index. Each turn takes one node out of the collection on balance, so
the number of leaves bounds the turns (R115). -/
def buildTree (w : LenW) (leaves : List Node) : List Node × NodeIdx :=
  let r := mergeLoop w leaves.length leaves (initialKeys leaves)
  (r.1, rootOf r.2)

/-! ### The commands -/

/-- `BLD_BEGIN`: open a build frame and clear the frequency table (R101). -/
def execBldBegin (s : State) : Host.Outcome State Fault Refusal :=
  inMode .idle (fun s =>
    let t := openFrame .build s
    { t with freq := Vector.replicate 256 0, wlen := 0 }) s

/-- Count one symbol of the text, or record that the counters are full (R102). -/
def countSymbol (sym : Byte) (s : State) : State :=
  if s.wlen = s.lenW.lenMax then frameError .capacity s
  else
    { s with
      freq := tableSet s.freq sym (addCount s.lenW (tableGet s.freq sym) 1)
      wlen := addCount s.lenW s.wlen 1 }

/-- `BLD_SYM s`: count one symbol of the text (R102). -/
def execBldSym (sym : Byte) (s : State) : Host.Outcome State Fault Refusal :=
  inMode .build (unlessError (countSymbol sym)) s

/-- The build proper: enumerate, merge, derive, publish (R103, R113). -/
def buildAndPublish (s : State) : State :=
  let leaves := enumerateLeaves s.freq
  let n := leaves.length
  let tree := buildTree s.lenW leaves
  publish (BitVec.ofNat 9 n) tree.1 tree.2 s.wlen (deriveCodes n tree.1 tree.2) s

/-- `BLD_END`: build the tree, derive the table, publish both, close the frame; a failed frame publishes nothing
(R103, R114). -/
def execBldEnd (s : State) : Host.Outcome State Fault Refusal :=
  inMode .build (fun s => closeFrame (unlessError buildAndPublish s)) s

end Sys2Proof.Machine
end

