-- ==== Sys2Proof/Machine/Dispatch.lean ====
section
/-! DEFINITION. The dispatch: one arm per command. -/

namespace Sys2Proof.Machine

def exec (i : Instr) (s : State) : Host.Outcome State Fault Refusal :=
  match i with
  | .nop => Sys2Proof.Machine.execNop s
  | .bldBegin => Sys2Proof.Machine.execBldBegin s
  | .bldSym sym => Sys2Proof.Machine.execBldSym sym s
  | .bldEnd => Sys2Proof.Machine.execBldEnd s
  | .encBegin => Sys2Proof.Machine.execEncBegin s
  | .encSym sym => Sys2Proof.Machine.execEncSym sym s
  | .encEnd => Sys2Proof.Machine.execEncEnd s
  | .decBegin => Sys2Proof.Machine.execDecBegin s
  | .decBit chr => Sys2Proof.Machine.execDecBit chr s
  | .decEnd => Sys2Proof.Machine.execDecEnd s
  | .rdCode sym => Sys2Proof.Machine.execRdCode sym s
  | .rdReg reg => Sys2Proof.Machine.execRdReg reg s

end Sys2Proof.Machine
end

