-- ==== Sys2Proof/Machine/Step.lean ====
section
/-! DEFINITION. One step of the machine: the next act of the host is carried out.

A command word is one atomic step (00_scope.md R6): decoded (30_encoding.md R77) and executed, or rejected with
F_ILLEGAL. Taking a response and reset are the host's two other acts (70_reset_and_hazards.md R231). With no act
pending the block waits: any amount of time may pass with no effect on the state (R232; log entry 1). -/

namespace Sys2Proof.Machine

def step (s : State) : Host.Outcome State Fault Refusal :=
  match s.host with
  | [] => .next s
  | .take :: rest => .next (takeResponse { s with host := rest })
  | .rst :: rest => .next (hostReset { s with host := rest })
  | .cmd w :: rest =>
    match decode w with
    | .ok i => exec i { s with host := rest }
    | .error _ => .next (raiseFault .illegal { s with host := rest })

/-- The state in which `step` executes the command word made of the low `nbits` bits of `w`. -/
def State.withFetchWord (s : State) (nbits w : Nat) : State := offerWord (tableWord nbits w) s

end Sys2Proof.Machine
end

