-- ==== Sys2Proof/Machine/Calls.lean ====
section
/-! DEFINITION. The host's four calls: their frames, how their results are read from the response stream, and the
functions the spec says they compute (30_encoding.md R88, 41_code_table.md R127, 42_encoder.md R140,
43_decoder.md R157, 44_system.md R172 to R175, R180).

Nothing here is part of the block: `exec` and `step` use none of it. -/

namespace Sys2Proof.Machine

/-- The pseudo-instructions (R88): one per call of the external interface. -/
inductive Call where
  | build (text : List Byte)
  | encode (text : List Byte)
  | decode (bits : List Byte)
  | snapshot
deriving DecidableEq, Repr

/-- The expansion of a pseudo-instruction into commands (R88). -/
def expandCall : Call → List Instr
  | .build t  => .bldBegin :: t.map .bldSym ++ [.bldEnd]
  | .encode t => .encBegin :: t.map .encSym ++ [.encEnd]
  | .decode b => .decBegin :: b.map .decBit ++ [.decEnd]
  | .snapshot => allSymbols.map .rdCode

/-- Execute commands one after another. -/
def execAll : List Instr → State → Host.Outcome State Fault Refusal
  | [], s => .next s
  | i :: is, s =>
    match exec i s with
    | .next t => execAll is t
    | .fault r => .fault r
    | .refused r => .refused r

/-- The kind field of a response word (R80). -/
def rspKindField (v : Word) : BitVec 4 := v.extractLsb' 12 4

/-- The data byte of a response word (R80). -/
def rspData (v : Word) : Byte := v.extractLsb' 0 8

/-- The data bytes of the words of one kind in a response stream, in order. -/
def dataOf (k : RspKind) (ws : List Word) : List Byte :=
  (ws.filter fun v => rspKindField v == kindCode k).map rspData

/-- The result of an encode call (kind `bit`) or a decode call (kind `sym`) read from its frame's responses: the
data words count only when the frame's one status is 0 (R173, R174, 70_reset_and_hazards.md R227). `none` while
the frame has no status yet (R234). Log entry 12. -/
def frameResult (k : RspKind) (ws : List Word) : Option (Except Byte (List Byte)) :=
  match dataOf .status ws with
  | [c] => some (if c = 0 then .ok (dataOf k ws) else .error c)
  | _ => none

/-- The mapping a snapshot returns, read from the responses of the `RD_CODE` commands of the symbols given: the
symbols whose `R_LEN` is not 0, each with its bit characters (R127, R175). -/
def readSnapshot : List Byte → List Word → List (Byte × List Byte)
  | [], _ => []
  | _ :: _, [] => []
  | s :: ss, v :: ws =>
    let n := (rspData v).toNat
    if n = 0 then readSnapshot ss ws else (s, (ws.take n).map rspData) :: readSnapshot ss (ws.drop n)

/-- What `encode(text)` computes under a published state (R140). -/
def encodeCall (s : State) (text : List Byte) : Except Status (List Byte) :=
  if text = [] then .ok []
  else if s.nsym = 0 then .error .empty
  else if text.any fun c => (tableGet s.code c).len == 0 then .error .noSym
  else .ok (text.flatMap fun c => codeChars (tableGet s.code c))

/-- The scan of R157 from a cursor, the tree being non-empty. -/
def decodeScan (s : State) : NodeIdx → List Byte → Except Status (List Byte)
  | cur, [] => if cur = s.root then .ok [] else .error .trunc
  | cur, c :: cs =>
    match charBit c with
    | none => .error .badBit
    | some b =>
      if s.nsym = 1 then
        if b then .error .noCode else (decodeScan s cur cs).map ((nodeAt s.node s.root).sym :: ·)
      else
        let k := child (nodeAt s.node cur) b
        if (nodeAt s.node k).leaf then (decodeScan s s.root cs).map ((nodeAt s.node k).sym :: ·)
        else decodeScan s k cs

/-- What `decode(bitstream)` computes under a published state (R157). -/
def decodeCall (s : State) (bits : List Byte) : Except Status (List Byte) :=
  if bits = [] then .ok []
  else if s.nsym = 0 then .error .empty
  else decodeScan s s.root bits

/-- The host-side compression ratio in percent, 0 for an empty original (R180, D25). The block does not compute
it (00_scope.md R4). -/
def compressionRatio (encodedBits originalSymbols : Nat) : ℚ :=
  if originalSymbols = 0 then 0 else encodedBits / (originalSymbols * 8) * 100

end Sys2Proof.Machine
end

