-- ==== Sys2Proof/Safety.lean ====
section
/-! DEFINITION. What counts as a good state of huffman_core, and the tables of the spec that statements about the
machine are made in: the frame grammar, the responses per command, the invariants. None of it is used by `exec` or
`step`. -/

namespace Sys2Proof.Machine

/-! ### The frame grammar (30_encoding.md R78) -/

/-- The legality table: which command is executed in which mode. -/
def legalIn : Instr → Mode → Bool
  | .nop,      _ => true
  | .rdReg _,  _ => true
  | .rdCode _, m => m == .idle
  | .bldBegin, m => m == .idle
  | .bldSym _, m => m == .build
  | .bldEnd,   m => m == .build
  | .encBegin, m => m == .idle
  | .encSym _, m => m == .encode
  | .encEnd,   m => m == .encode
  | .decBegin, m => m == .idle
  | .decBit _, m => m == .decode
  | .decEnd,   m => m == .decode

/-- The table's last column: the mode after an executed command. -/
def nextMode : Instr → Mode → Mode
  | .bldBegin, _ => .build
  | .encBegin, _ => .encode
  | .decBegin, _ => .decode
  | .bldEnd,   _ => .idle
  | .encEnd,   _ => .idle
  | .decEnd,   _ => .idle
  | _,         m => m

/-- The assigned register numbers (10_state.md R35). -/
def regAssigned (w : LenW) (r : Byte) : Bool := r.toNat < 7 || (8 ≤ r.toNat && r.toNat < 8 + w.bytes)

/-- The command is rejected in this state: out of place, or naming no register (R77 steps 2 and 3). -/
def rejected (i : Instr) (s : State) : Bool :=
  !legalIn i s.mode ||
    match i with
    | .rdReg r => !regAssigned s.lenW r
    | _ => false

/-- The state after a rejected command: the fault code recorded and its word emitted, nothing else
(60_exceptions.md R204). -/
def rejectedWith (code : BitVec 2) (v : Word) (s : State) : State :=
  { s with fault := code, rsp := s.rsp ++ [v] }

/-- The number of a mode (10_state.md R21). -/
def modeNumber : Mode → Nat
  | .idle => 0 | .build => 1 | .encode => 2 | .decode => 3

/-- The register map as numbers (10_state.md R35): what register number `r` reads as, `none` where unassigned. -/
def registerValue (s : State) (r : Nat) : Option Nat :=
  if r = 0 then
    some (modeNumber s.mode + (if 1 ≤ s.nsym.toNat then 4 else 0) + (if s.nsym.toNat = 1 then 8 else 0)
      + (if s.cur = s.root then 16 else 0))
  else if r = 1 then some s.err.toNat
  else if r = 2 then some s.fault.toNat
  else if r = 3 then some (s.nsym.toNat % 256)
  else if r = 4 then some (s.nsym.toNat / 256)
  else if r = 5 then some (s.root.toNat % 256)
  else if r = 6 then some (s.root.toNat / 256)
  else if 8 ≤ r ∧ r < 8 + s.lenW.bytes then some (s.textLen / 2 ^ (8 * (r - 8)) % 256)
  else none

/-- The command that closes the frame open in a mode (60_exceptions.md R209); `NOP` where none is open. -/
def closingCommand : Mode → Instr
  | .idle => .nop
  | .build => .bldEnd
  | .encode => .encEnd
  | .decode => .decEnd

/-- The data commands, the ones that a pending frame error makes inert (60_exceptions.md R203). -/
def isDataCommand : Instr → Bool
  | .bldSym _ => true
  | .encSym _ => true
  | .decBit _ => true
  | _ => false

/-- The commands that open a frame. -/
def isBegin : Instr → Bool
  | .bldBegin => true
  | .encBegin => true
  | .decBegin => true
  | _ => false

/-- A run is quiescent when it ends with no frame open (70_reset_and_hazards.md R234). -/
def quiescent (s : State) : Bool := s.mode == .idle

/-! ### Responses (30_encoding.md R81, R86) -/

/-- The kinds of the response words of a command in a state, in order (R86). -/
def responseKinds (i : Instr) (s : State) : List RspKind :=
  if rejected i s then [.fault]
  else
    match i with
    | .bldEnd => [.status]
    | .encEnd => [.status]
    | .decEnd => [.status]
    | .encSym c =>
      if s.err = 0 ∧ s.nsym ≠ 0 then List.replicate (tableGet s.code c).len.toNat .bit else []
    | .decBit c =>
      if s.err = 0 ∧ s.nsym ≠ 0 then
        match charBit c with
        | none => []
        | some b =>
          if s.nsym = 1 then (if b then [] else [.sym])
          else if (nodeAt s.node (child (nodeAt s.node s.cur) b)).leaf then [.sym] else []
      else []
    | .rdCode c => .len :: List.replicate (tableGet s.code c).len.toNat .bit
    | .rdReg _ => [.reg]
    | _ => []

/-- A response word the block may emit (R81): its kind is one of the six, bits 11:8 are 0, and the data byte is
one the kind allows. -/
def responseOk (v : Word) : Bool :=
  v.toNat / 256 % 16 == 0 &&
    match v.toNat / 4096 with
    | 1 => v.toNat % 256 == 0x30 || v.toNat % 256 == 0x31
    | 2 => true
    | 3 => v.toNat % 256 ≤ 6
    | 4 => 1 ≤ v.toNat % 256 && v.toNat % 256 ≤ 3
    | 5 => true
    | 6 => true
    | _ => false

/-! ### Invariants -/

/-- The frequency table (10_state.md R44): `WLEN` is the sum of the counts, and no sum exceeds `LEN_MAX`. -/
structure CountsOk (s : State) : Prop where
  sum   : s.wlen = s.freq.toList.sum
  bound : s.wlen ≤ s.lenW.lenMax

/-- The values `ERR` may have: by the open frame and, in it, by the published tree (40_tree_builder.md R114;
42_encoder.md R137, R138; 43_decoder.md R152, R159); after a frame any status code of 30_encoding.md R82. -/
def errAllowed : Mode → Nat → List (BitVec 4)
  | .idle, _ => [0, 1, 2, 3, 4, 5, 6]
  | .build, _ => [0, 6]
  | .encode, 0 => [0, 1]
  | .encode, _ => [0, 2]
  | .decode, 0 => [0, 1]
  | .decode, 1 => [0, 3, 5]
  | .decode, _ => [0, 3]

/-- `NNODE` (10_state.md R27). -/
def nnode (n : Nat) : Nat := if n = 0 then 0 else 2 * n - 1

/-- Node `k` is a child of the node. -/
def hasChild (nd : Node) (k : Nat) : Bool := !nd.leaf && (nd.left.toNat == k || nd.right.toNat == k)

/-- The published tree (10_state.md R28, R37, R38), for `n` leaves. -/
structure TreeOk (n : Nat) (ns : List Node) (root : NodeIdx) : Prop where
  alphabet  : n ≤ 256
  size      : ns.length = nnode n
  rootIndex : root.toNat = 2 * n - 2
  leaves    : ∀ k (h : k < ns.length), ns[k].leaf = true ↔ k < n
  leafNode  : ∀ k (h : k < ns.length), ns[k].leaf = true → 1 ≤ ns[k].freq ∧ ns[k].left = 0 ∧ ns[k].right = 0
  innerNode : ∀ k (h : k < ns.length), ns[k].leaf = false →
    ns[k].sym = 0 ∧ ns[k].left ≠ ns[k].right ∧ ns[k].left.toNat < k ∧ ns[k].right.toNat < k ∧
      ns[k].freq = (nodeAt ns ns[k].left).freq + (nodeAt ns ns[k].right).freq
  owned     : ∀ k (_ : k < ns.length), ns.countP (fun nd => hasChild nd k) = if k = root.toNat then 0 else 1
  ascending : ∀ j (hj : j < ns.length) i (hi : i < j), j < n → ns[i].sym < ns[j].sym

/-- The nodes still in the priority collection when node `k` is made: those below `k` that are no child yet
(40_tree_builder.md R105). -/
def liveBefore (ns : List Node) (k : Nat) : List Nat :=
  (List.range k).filter fun x => !(ns.take k).any fun nd => hasChild nd x

/-- The frequency of node `x`, 0 where there is none. -/
def freqAt (ns : List Node) (x : Nat) : Nat :=
  match ns[x]? with
  | some nd => nd.freq
  | none => 0

/-- The order of removal (40_tree_builder.md R106): by frequency, then by index. -/
abbrev keyBefore (ns : List Node) (x y : Nat) : Prop :=
  freqAt ns x < freqAt ns y ∨ (freqAt ns x = freqAt ns y ∧ x < y)

/-- The arena is one the merge engine makes (40_tree_builder.md R105, R106, R108): the left child of every internal
node had the least key of the nodes then in the collection, and the right child the least key of the others. -/
def MergedArena (n : Nat) (ns : List Node) : Prop :=
  ∀ k (h : k < ns.length), n ≤ k →
    ns[k].left.toNat ∈ liveBefore ns k ∧ ns[k].right.toNat ∈ liveBefore ns k ∧
      keyBefore ns ns[k].left.toNat ns[k].right.toNat ∧
      ∀ x ∈ liveBefore ns k, x ≠ ns[k].left.toNat → x ≠ ns[k].right.toNat → keyBefore ns ns[k].right.toNat x

/-- The node that a list of steps leads to from `k`; no step leaves a leaf (41_code_table.md R120). -/
def followPath (ns : List Node) : NodeIdx → List Bool → Option NodeIdx
  | k, [] => some k
  | k, b :: p => if (nodeAt ns k).leaf then none else followPath ns (child (nodeAt ns k) b) p

/-- The code table of a tree (10_state.md R39, 41_code_table.md R120, R122, R123): the code of a leaf's symbol is
its path from the root, with its length; of a single leaf it is the one bit 0; every other symbol is absent. -/
structure TableOk (n : Nat) (ns : List Node) (root : NodeIdx) (c : Table CodeEntry) : Prop where
  path   : 2 ≤ n → ∀ k (h : k < ns.length), k < n →
    followPath ns root (tableGet c ns[k].sym).bits = some (BitVec.ofNat 9 k) ∧
      (tableGet c ns[k].sym).len.toNat = (tableGet c ns[k].sym).bits.length
  single : n = 1 → ∀ k (h : k < ns.length), tableGet c ns[k].sym = ⟨1, [false]⟩
  absent : ∀ s : Byte, (∀ k (h : k < ns.length), k < n → ns[k].sym ≠ s) → tableGet c s = ⟨0, []⟩

/-- The cursor (10_state.md R45). -/
structure CursorOk (s : State) : Prop where
  closed : s.mode ≠ .decode → s.cur = s.root
  small  : s.nsym.toNat ≤ 1 → s.cur = s.root
  inner  : s.mode = .decode → 2 ≤ s.nsym.toNat →
    (nodeAt s.node s.cur).leaf = false ∧ s.nsym.toNat ≤ s.cur.toNat ∧ s.cur.toNat ≤ s.root.toNat

/-- The machine's invariant: what holds after reset and after every step. -/
structure Sound (s : State) : Prop where
  counts : CountsOk s
  err    : s.err ∈ errAllowed s.mode s.nsym.toNat
  tree   : TreeOk s.nsym.toNat s.node s.root
  merged : MergedArena s.nsym.toNat s.node
  length : s.textLen = if s.nsym = 0 then 0 else (nodeAt s.node s.root).freq
  width  : s.textLen ≤ s.lenW.lenMax
  table  : TableOk s.nsym.toNat s.node s.root s.code
  cursor : CursorOk s

end Sys2Proof.Machine
end

