-- ==== Sys2Proof/Certificates/Slice0/Obligations.lean ====
section
/-! DEFINITION. The statements about huffman_core, each a `Prop` about `decode`, `encode`, `exec` or `step`.

Where a statement names an internal function of the model (`enumerateLeaves`, `buildTree`, `deriveCodes`), another
statement here says from the spec's rules what that function answers.

Rules that the spec marks "[derived: ...]" (R37, R38, R39, R44, R45, R86, R111, R112, R125, R140, R157, R158, R159,
R209, R220, R233 among them) are inferences of its own: a statement that rests on one is derived, not stated. -/

open Sys2Proof Sys2Proof.Machine

/-! ### Encoding and the step -/

/-- 30_encoding.md R71 to R74: no bit of an encoding is dropped, and every command word has one meaning. -/
def Obligations.DecodeEncodeAgree : Prop :=
  (∀ i, decode (encode i) = .ok i) ∧ ∀ w i, decode w = .ok i → encode i = w

/-- 30_encoding.md R75: which words are illegal, what an illegal word does, and how many there are. -/
def Obligations.IllegalWordsRejected : Prop :=
  (∀ w : Word, (∃ e, decode w = .error e) ↔
    (12 ≤ w.toNat / 4096 ∨ w.toNat / 256 % 16 ≠ 0 ∨
      (w.toNat / 4096 ∈ [0, 1, 3, 4, 6, 7, 9] ∧ w.toNat % 256 ≠ 0))) ∧
  (∀ s w rest, s.host = .cmd w :: rest → (∃ e, decode w = .error e) →
    step s = .next { s with host := rest, fault := 1, rsp := s.rsp ++ [0x4001] }) ∧
  ((List.range 65536).filter fun n => (decodeTableWord 16 n).isSome).length = 1287 ∧
  ((List.range 65536).filter fun n => (decodeTableWord 16 n).isNone).length = 64249

/-- 30_encoding.md R74: words written out from the opcode map stand for the commands it says. -/
def Obligations.OpcodeMapWords : Prop :=
  decode 0b0000000000000000 = .ok .nop ∧ decode 0b0001000000000000 = .ok .bldBegin ∧
  decode 0b0010000001100001 = .ok (.bldSym 0x61) ∧ decode 0b0011000000000000 = .ok .bldEnd ∧
  decode 0b0100000000000000 = .ok .encBegin ∧ decode 0b0101000011111111 = .ok (.encSym 0xFF) ∧
  decode 0b0110000000000000 = .ok .encEnd ∧ decode 0b0111000000000000 = .ok .decBegin ∧
  decode 0b1000000000110001 = .ok (.decBit 0x31) ∧ decode 0b1001000000000000 = .ok .decEnd ∧
  decode 0b1010000010000000 = .ok (.rdCode 0x80) ∧ decode 0b1011000000001011 = .ok (.rdReg 0x0B)

/-- 00_scope.md R6, 20_memory.md R60, 30_encoding.md R77: when the next act of the host is a command word, the step
executes the command it stands for, on the state without that act; nothing is added around it. That the host's words
stand in the list `host` of the state is the model's choice (log entry 1). The second clause is the model's choice
alone and rests on no rule: the block fetches nothing, and `withFetchWord` puts a word at the head of that list, so
that the next step executes it (log entry 10, with log entry 1). -/
def Obligations.StepExecutesDecodedCommand : Prop :=
  (∀ s w rest i, s.host = .cmd w :: rest → decode w = .ok i → step s = exec i { s with host := rest }) ∧
  ∀ s (w : Word) i, decode w = .ok i → step (s.withFetchWord 16 w.toNat) = exec i s

/-- The model's choice (log entries 1, 2, 7), from 70_reset_and_hazards.md R232 and 30_encoding.md R90: with no act
pending the step changes nothing; taking a response removes the oldest word and changes nothing else; reset leaves
the parameter of the instance and what the host does afterwards. -/
def Obligations.HostActs : Prop :=
  (∀ s, s.host = [] → step s = .next s) ∧
  (∀ s rest v vs, s.host = .take :: rest → s.rsp = v :: vs → step s = .next { s with host := rest, rsp := vs }) ∧
  (∀ s rest, s.host = .take :: rest → s.rsp = [] → step s = .next { s with host := rest }) ∧
  ∀ s rest, s.host = .rst :: rest → ∃ t, step s = .next t ∧ t.lenW = s.lenW ∧ t.host = rest

/-- 70_reset_and_hazards.md R221: the state after reset, from every state. -/
def Obligations.ResetSetsEveryElement : Prop :=
  ∀ s rest, s.host = .rst :: rest → ∃ t, step s = .next t ∧
    t.mode = .idle ∧ t.err = 0 ∧ t.fault = 0 ∧ (∀ b, tableGet t.freq b = 0) ∧ t.wlen = 0 ∧ t.nsym = 0 ∧
    t.node = [] ∧ t.root = 0 ∧ t.textLen = 0 ∧ (∀ b, tableGet t.code b = ⟨0, []⟩) ∧ t.cur = 0 ∧ t.rsp = []

/-- 10_state.md R41: the values of the state the machine starts in, for every value of the parameter. -/
def Obligations.ResetStateValues : Prop :=
  ∀ w, (State.resetWith w).mode = .idle ∧ (State.resetWith w).err = 0 ∧ (State.resetWith w).fault = 0 ∧
    (∀ b, tableGet (State.resetWith w).freq b = 0) ∧ (State.resetWith w).wlen = 0 ∧
    (State.resetWith w).nsym = 0 ∧ (State.resetWith w).node = [] ∧ (State.resetWith w).root = 0 ∧
    (State.resetWith w).textLen = 0 ∧ (∀ b, tableGet (State.resetWith w).code b = ⟨0, []⟩) ∧
    (State.resetWith w).cur = 0

/-- 30_encoding.md R78, 60_exceptions.md R198: in a mode where the table says so a command is executed and leaves
the mode the table says; elsewhere it is rejected with F_SEQ and changes nothing else. -/
def Obligations.FrameGrammarEnforced : Prop :=
  ∀ i s,
    (legalIn i s.mode = true → ∃ t, exec i s = .next t ∧ t.mode = nextMode i s.mode ∧
      (rejected i s = false → t.fault = s.fault)) ∧
    (legalIn i s.mode = false → exec i s = .next (rejectedWith 2 0x4002 s))

/-! ### The commands: encoding, legality, effect -/

/-- 44_system.md R170. -/
def Obligations.NopDoesNothing : Prop :=
  encode .nop = 0x0000 ∧ ∀ s, exec .nop s = .next s

/-- 40_tree_builder.md R101. -/
def Obligations.BldBeginOpensAndClears : Prop :=
  encode .bldBegin = 0x1000 ∧
  ∀ s, (s.mode = .idle →
      exec .bldBegin s = .next { s with mode := .build, err := 0, freq := Vector.replicate 256 0, wlen := 0 }) ∧
    (s.mode ≠ .idle → exec .bldBegin s = .next (rejectedWith 2 0x4002 s))

/-- 40_tree_builder.md R102: the additions are exact in every state whose frequency table is sound (R44). -/
def Obligations.BldSymCountsOneSymbol : Prop :=
  ∀ b, (encode (.bldSym b)).toNat = 0x2000 + b.toNat ∧
  ∀ s, (s.mode ≠ .build → exec (.bldSym b) s = .next (rejectedWith 2 0x4002 s)) ∧
    (s.mode = .build → s.err ≠ 0 → exec (.bldSym b) s = .next s) ∧
    (s.mode = .build → s.err = 0 → s.wlen = 2 ^ s.lenW.bits - 1 →
      exec (.bldSym b) s = .next { s with err := 6 }) ∧
    (s.mode = .build → s.err = 0 → s.wlen ≠ 2 ^ s.lenW.bits - 1 → CountsOk s →
      exec (.bldSym b) s = .next
        { s with freq := tableSet s.freq b (tableGet s.freq b + 1), wlen := s.wlen + 1 })

/-- 40_tree_builder.md R103, R113: a successful `BLD_END` replaces the whole published state and the cursor in one
step, answers status 0 and closes the frame, and `FREQ` and `WLEN` keep the counts; with an error pending it reports
`ERR` and closes the frame. -/
def Obligations.BldEndPublishesInOneStep : Prop :=
  encode .bldEnd = 0x3000 ∧
  ∀ s, (s.mode ≠ .build → exec .bldEnd s = .next (rejectedWith 2 0x4002 s)) ∧
    (s.mode = .build → s.err ≠ 0 →
      exec .bldEnd s = .next { s with mode := .idle, rsp := s.rsp ++ [0x3000 + s.err.setWidth 16] }) ∧
    (s.mode = .build → s.err = 0 →
      exec .bldEnd s = .next
        { s with
          nsym := BitVec.ofNat 9 (enumerateLeaves s.freq).length
          node := (buildTree s.lenW (enumerateLeaves s.freq)).1
          root := (buildTree s.lenW (enumerateLeaves s.freq)).2
          textLen := s.wlen
          code := deriveCodes (enumerateLeaves s.freq).length (buildTree s.lenW (enumerateLeaves s.freq)).1
            (buildTree s.lenW (enumerateLeaves s.freq)).2
          cur := (buildTree s.lenW (enumerateLeaves s.freq)).2
          mode := .idle
          rsp := s.rsp ++ [0x3000] })

/-- 40_tree_builder.md R114: a failed build publishes nothing; only E_CAPACITY can be pending in a build frame, so
the status word is 0x3006. -/
def Obligations.FailedBuildPublishesNothing : Prop :=
  ∀ s, Sound s → s.mode = .build → s.err ≠ 0 →
    exec .bldEnd s = .next { s with mode := .idle, rsp := s.rsp ++ [0x3006] }

/-- 42_encoder.md R136. -/
def Obligations.EncBeginOpensFrame : Prop :=
  encode .encBegin = 0x4000 ∧
  ∀ s, (s.mode = .idle → exec .encBegin s = .next { s with mode := .encode, err := 0 }) ∧
    (s.mode ≠ .idle → exec .encBegin s = .next (rejectedWith 2 0x4002 s))

/-- 42_encoder.md R137: E_EMPTY before E_NOSYM, then the bits of the code, the first step from the root first. -/
def Obligations.EncSymEmitsCode : Prop :=
  ∀ c, (encode (.encSym c)).toNat = 0x5000 + c.toNat ∧
  ∀ s, (s.mode ≠ .encode → exec (.encSym c) s = .next (rejectedWith 2 0x4002 s)) ∧
    (s.mode = .encode → s.err ≠ 0 → exec (.encSym c) s = .next s) ∧
    (s.mode = .encode → s.err = 0 → s.nsym = 0 → exec (.encSym c) s = .next { s with err := 1 }) ∧
    (s.mode = .encode → s.err = 0 → s.nsym ≠ 0 → (tableGet s.code c).len = 0 →
      exec (.encSym c) s = .next { s with err := 2 }) ∧
    (s.mode = .encode → s.err = 0 → s.nsym ≠ 0 → (tableGet s.code c).len ≠ 0 →
      exec (.encSym c) s = .next
        { s with rsp := s.rsp ++ (List.range (tableGet s.code c).len.toNat).map fun i =>
            if (tableGet s.code c).bits.getD i false then 0x1031 else 0x1030 })

/-- 42_encoder.md R138: one status word, which in a sound state is one of the three the rule lists. -/
def Obligations.EncEndReportsStatus : Prop :=
  encode .encEnd = 0x6000 ∧
  ∀ s, (s.mode ≠ .encode → exec .encEnd s = .next (rejectedWith 2 0x4002 s)) ∧
    (s.mode = .encode →
      exec .encEnd s = .next { s with mode := .idle, rsp := s.rsp ++ [0x3000 + s.err.setWidth 16] }) ∧
    (s.mode = .encode → Sound s →
      ∃ v, v ∈ [(0x3000 : Word), 0x3001, 0x3002] ∧
        exec .encEnd s = .next { s with mode := .idle, rsp := s.rsp ++ [v] })

/-- 43_decoder.md R151. -/
def Obligations.DecBeginOpensAtRoot : Prop :=
  encode .decBegin = 0x7000 ∧
  ∀ s, (s.mode = .idle → exec .decBegin s = .next { s with mode := .decode, err := 0, cur := s.root }) ∧
    (s.mode ≠ .idle → exec .decBegin s = .next (rejectedWith 2 0x4002 s))

/-- 43_decoder.md R152 (and the table R154), case by case. Where the arena has no entry the model's free value stands
for it (log entry 4); no sound state reads one. -/
def Obligations.DecBitWalksTree : Prop :=
  ∀ c, (encode (.decBit c)).toNat = 0x8000 + c.toNat ∧
  ∀ s, (s.mode ≠ .decode → exec (.decBit c) s = .next (rejectedWith 2 0x4002 s)) ∧
    (s.mode = .decode → s.err ≠ 0 → exec (.decBit c) s = .next s) ∧
    (s.mode = .decode → s.err = 0 → s.nsym = 0 → exec (.decBit c) s = .next { s with err := 1 }) ∧
    (s.mode = .decode → s.err = 0 → s.nsym ≠ 0 → c ≠ 0x30 → c ≠ 0x31 →
      exec (.decBit c) s = .next { s with err := 3 }) ∧
    (s.mode = .decode → s.err = 0 → s.nsym = 1 → c = 0x30 →
      exec (.decBit c) s = .next
        { s with rsp := s.rsp ++ [0x2000 + (nodeAt s.node s.root).sym.setWidth 16] }) ∧
    (s.mode = .decode → s.err = 0 → s.nsym = 1 → c = 0x31 →
      exec (.decBit c) s = .next { s with err := 5 }) ∧
    (s.mode = .decode → s.err = 0 → 2 ≤ s.nsym.toNat → c = 0x30 ∨ c = 0x31 →
      ∀ k, k = (if c = 0x30 then (nodeAt s.node s.cur).left else (nodeAt s.node s.cur).right) →
        ((nodeAt s.node k).leaf = true →
          exec (.decBit c) s = .next
            { s with cur := s.root, rsp := s.rsp ++ [0x2000 + (nodeAt s.node k).sym.setWidth 16] }) ∧
        ((nodeAt s.node k).leaf = false → exec (.decBit c) s = .next { s with cur := k }))

/-- 43_decoder.md R153: E_TRUNC only when no error is pending; the cursor goes back to the root; in a sound state the
status word is one of the five the rule lists, and no truncation is reported under a tree of at most one leaf. -/
def Obligations.DecEndChecksTruncation : Prop :=
  encode .decEnd = 0x9000 ∧
  ∀ s, (s.mode ≠ .decode → exec .decEnd s = .next (rejectedWith 2 0x4002 s)) ∧
    (s.mode = .decode → s.err = 0 → s.cur ≠ s.root →
      exec .decEnd s = .next { s with err := 4, cur := s.root, mode := .idle, rsp := s.rsp ++ [0x3004] }) ∧
    (s.mode = .decode → s.err ≠ 0 ∨ s.cur = s.root →
      exec .decEnd s = .next
        { s with cur := s.root, mode := .idle, rsp := s.rsp ++ [0x3000 + s.err.setWidth 16] }) ∧
    (s.mode = .decode → Sound s →
      ∃ v t, v ∈ [(0x3000 : Word), 0x3001, 0x3003, 0x3004, 0x3005] ∧ exec .decEnd s = .next t ∧
        t.rsp = s.rsp ++ [v] ∧ (s.nsym.toNat ≤ 1 → v ≠ 0x3004))

/-- 41_code_table.md R126: one `R_LEN` word, then the bits; an absent symbol answers 0x5000. -/
def Obligations.RdCodeReadsOneEntry : Prop :=
  ∀ c, (encode (.rdCode c)).toNat = 0xA000 + c.toNat ∧
  ∀ s, (s.mode ≠ .idle → exec (.rdCode c) s = .next (rejectedWith 2 0x4002 s)) ∧
    (s.mode = .idle →
      exec (.rdCode c) s = .next
        { s with rsp := s.rsp ++ [0x5000 + (tableGet s.code c).len.setWidth 16] ++
            (List.range (tableGet s.code c).len.toNat).map fun i =>
              if (tableGet s.code c).bits.getD i false then 0x1031 else 0x1030 })

/-- 44_system.md R171 with the register map 10_state.md R35, in every mode: an assigned number answers its byte and
changes nothing else, an unassigned one raises F_REG. -/
def Obligations.RdRegReadsRegisterMap : Prop :=
  ∀ r, (encode (.rdReg r)).toNat = 0xB000 + r.toNat ∧
  ∀ s, (∀ v, registerValue s r.toNat = some v →
      v < 256 ∧ exec (.rdReg r) s = .next { s with rsp := s.rsp ++ [BitVec.ofNat 16 (0x6000 + v)] }) ∧
    (registerValue s r.toNat = none → exec (.rdReg r) s = .next (rejectedWith 3 0x4003 s))

/-! ### The merge engine and the derivation -/

/-- 40_tree_builder.md R104: exactly one leaf per symbol with a count, in ascending order of symbol. -/
def Obligations.LeafEnumerationAscending : Prop :=
  ∀ freq : Table Nat,
    (enumerateLeaves freq).Pairwise (fun a b => a.sym < b.sym) ∧
    ∀ nd, nd ∈ enumerateLeaves freq ↔
      1 ≤ tableGet freq nd.sym ∧ nd = ⟨true, nd.sym, tableGet freq nd.sym, 0, 0⟩

/-- 40_tree_builder.md R111, for every frequency table: 2n - 1 nodes, the root the last of them. -/
def Obligations.RootIndexAndTreeSize : Prop :=
  ∀ w freq, ∀ n, n = (enumerateLeaves freq).length →
    (1 ≤ n → (buildTree w (enumerateLeaves freq)).1.length = 2 * n - 1 ∧
      (buildTree w (enumerateLeaves freq)).2.toNat = 2 * n - 2) ∧
    (n = 256 → (buildTree w (enumerateLeaves freq)).1.length = 511 ∧
      (buildTree w (enumerateLeaves freq)).2 = 510)

/-- 40_tree_builder.md R105, R106, R108, R112 and the tree invariants R37, R38: for every frequency table whose sum
fits, the engine's arena starts with the leaves, is a strict binary tree that owns every node once, merges at every
turn the two nodes of least key, the first removed on the left, and its frequencies are exact sums up to the total. -/
def Obligations.MergeBuildsHuffmanTree : Prop :=
  ∀ w (freq : Table Nat), freq.toList.sum ≤ w.lenMax →
    ∀ leaves ns r, leaves = enumerateLeaves freq → (ns, r) = buildTree w leaves →
      leaves <+: ns ∧ TreeOk leaves.length ns r ∧ MergedArena leaves.length ns ∧
      (leaves ≠ [] → (nodeAt ns r).freq = freq.toList.sum)

/-- 40_tree_builder.md R109: an empty build is a success that publishes the empty tree. -/
def Obligations.EmptyBuildPublishesEmptyTree : Prop :=
  ∀ s, s.mode = .build → s.err = 0 → (∀ b, tableGet s.freq b = 0) → s.wlen = 0 →
    exec .bldEnd s = .next
      { s with
        mode := .idle, nsym := 0, node := [], root := 0, cur := 0, textLen := 0
        code := Vector.replicate 256 ⟨0, []⟩, rsp := s.rsp ++ [0x3000] }

/-- 40_tree_builder.md R110, 41_code_table.md R122: one symbol gives the single leaf and the code "0". -/
def Obligations.SingleSymbolBuildGivesCodeZero : Prop :=
  ∀ s b, s.mode = .build → s.err = 0 → 1 ≤ tableGet s.freq b → (∀ c, c ≠ b → tableGet s.freq c = 0) →
    exec .bldEnd s = .next
      { s with
        mode := .idle, nsym := 1, node := [⟨true, b, tableGet s.freq b, 0, 0⟩], root := 0, cur := 0
        textLen := s.wlen, code := tableSet (Vector.replicate 256 ⟨0, []⟩) b ⟨1, [false]⟩
        rsp := s.rsp ++ [0x3000] }

/-- 41_code_table.md R120, R122, R123: for every strict binary tree with its leaves first, the derived table holds
for each leaf's symbol its path from the root, the code "0" for a lone leaf, and nothing else. -/
def Obligations.DerivedCodesAreRootPaths : Prop :=
  ∀ n ns r, TreeOk n ns r → TableOk n ns r (deriveCodes n ns r)

/-! ### What the invariant gives -/

/-- 41_code_table.md R125, the first bound: a present code has 1 to max(1, `NSYM` - 1) bits. -/
def Obligations.CodeLengthBounded : Prop :=
  ∀ s, Sound s → ∀ b, (tableGet s.code b).len ≠ 0 →
    1 ≤ (tableGet s.code b).len.toNat ∧ (tableGet s.code b).len.toNat ≤ max 1 (s.nsym.toNat - 1) ∧
    (tableGet s.code b).bits.length = (tableGet s.code b).len.toNat

/-- 44_system.md R177: no code of a symbol starts with the code of another. -/
def Obligations.CodesArePrefixFree : Prop :=
  ∀ s, Sound s → ∀ a b, a ≠ b → (tableGet s.code a).len ≠ 0 → (tableGet s.code b).len ≠ 0 →
    ¬ (tableGet s.code a).bits <+: (tableGet s.code b).bits

/-- 44_system.md R178: a symbol of lower frequency never gets a strictly shorter code. -/
def Obligations.CodeLengthsMonotone : Prop :=
  ∀ s, Sound s → ∀ i j (hi : i < s.node.length) (hj : j < s.node.length),
    i < s.nsym.toNat → j < s.nsym.toNat → s.node[i].freq < s.node[j].freq →
    (tableGet s.code s.node[j].sym).len.toNat ≤ (tableGet s.code s.node[i].sym).len.toNat

/-- 44_system.md R179, in the wider form 93_implementation_defined.md G3 (every text, not only those of two symbols
or more with non-uniform frequencies): the encoding of the built text has at most 8 bits a symbol. -/
def Obligations.CompressionBound : Prop :=
  ∀ s t text bits, s.mode = .idle → text.length ≤ s.lenW.lenMax →
    execAll (expandCall (.build text)) s = .next t → encodeCall t text = .ok bits →
    bits.length ≤ 8 * text.length

/-! ### Invariants every step keeps -/

/-- Reset meets the machine's invariant, for every value of the parameter (10_state.md R37, R39, R44, R45 "after
reset"). -/
def Obligations.ResetMeetsInvariant : Prop := ∀ w, Sound (State.resetWith w)

/-- 10_state.md R37, R38, R39, R44, R45: the machine's invariant is kept by every step, from every state that meets
it. -/
def Obligations.StepKeepsInvariant : Prop := ∀ s t, Sound s → step s = .next t → Sound t

/-- 10_state.md R44, alone: it needs no other part of the invariant. -/
def Obligations.StepKeepsCounts : Prop := ∀ s t, CountsOk s → step s = .next t → CountsOk t

/-- 10_state.md R45: the cursor's invariant, given only that the published tree is one. -/
def Obligations.StepKeepsCursor : Prop :=
  ∀ s t, TreeOk s.nsym.toNat s.node s.root → CursorOk s → step s = .next t → CursorOk t

/-- 10_state.md R22, 43_decoder.md R159: which values `ERR` takes, by open frame and published tree. -/
def Obligations.StepKeepsErrorCodes : Prop :=
  ∀ s t, s.err ∈ errAllowed s.mode s.nsym.toNat → step s = .next t → t.err ∈ errAllowed t.mode t.nsym.toNat

/-- 30_encoding.md R80, R81: every response word is of one of the six kinds, with a data byte the kind allows. -/
def Obligations.ResponsesStayWellFormed : Prop :=
  ∀ s t, s.err ∈ errAllowed s.mode s.nsym.toNat → (∀ v ∈ s.rsp, responseOk v = true) → step s = .next t →
    ∀ v ∈ t.rsp, responseOk v = true

/-! ### Whole-machine rules and frames -/

/-- 10_state.md R42, 41_code_table.md R128, 60_exceptions.md R207: only a successful `BLD_END` changes the published
state. -/
def Obligations.PublishedStateOnlyByBuild : Prop :=
  ∀ i s t, exec i s = .next t → ¬ (i = .bldEnd ∧ s.mode = .build ∧ s.err = 0) →
    t.nsym = s.nsym ∧ t.node = s.node ∧ t.root = s.root ∧ t.textLen = s.textLen ∧ t.code = s.code

/-- 10_state.md R23: `FAULT` is written by every rejected command with its code, by no accepted command, and cleared
by reset only. -/
def Obligations.FaultRegisterLife : Prop :=
  ∀ s t, step s = .next t →
    t.fault = match s.host with
      | .cmd w :: _ =>
        (match decode w with
        | .error _ => 1
        | .ok i => if legalIn i s.mode = false then 2 else if rejected i s then 3 else s.fault)
      | .rst :: _ => 0
      | _ => s.fault

/-- 10_state.md R22: a BEGIN command clears `ERR`; once non-zero it is not changed until the next; only the first
data command that detects an error, or `DEC_END`, sets it. -/
def Obligations.ErrRegisterLife : Prop :=
  ∀ i s t, exec i s = .next t →
    (isBegin i = true → legalIn i s.mode = true → t.err = 0) ∧
    (isBegin i = false ∨ legalIn i s.mode = false → s.err ≠ 0 → t.err = s.err) ∧
    (isBegin i = false → isDataCommand i = false → i ≠ .decEnd → t.err = s.err)

/-- 60_exceptions.md R203: a pending frame error makes every data command of the frame inert. -/
def Obligations.PendingErrorIgnoresData : Prop :=
  ∀ i s, isDataCommand i = true → legalIn i s.mode = true → s.err ≠ 0 → exec i s = .next s

/-- 42_encoder.md R139: a command of the encoder changes nothing but `MODE`, `ERR` and the response stream, which it
only extends; rejected, it changes only `FAULT` and the response stream. -/
def Obligations.EncoderFrame : Prop :=
  ∀ i s t, (i = .encBegin ∨ (∃ c, i = .encSym c) ∨ i = .encEnd) → exec i s = .next t →
    (legalIn i s.mode = true → ∃ ws, t = { s with mode := t.mode, err := t.err, rsp := s.rsp ++ ws }) ∧
    (legalIn i s.mode = false → ∃ v, t = { s with fault := t.fault, rsp := s.rsp ++ [v] })

/-- 43_decoder.md R160: a command of the decoder changes nothing but `MODE`, `ERR`, `CUR` and the response stream,
and the cursor is at the root when the frame closes. -/
def Obligations.DecoderFrame : Prop :=
  ∀ i s t, (i = .decBegin ∨ (∃ c, i = .decBit c) ∨ i = .decEnd) → exec i s = .next t →
    (legalIn i s.mode = true →
      (∃ ws, t = { s with mode := t.mode, err := t.err, cur := t.cur, rsp := s.rsp ++ ws }) ∧
      (i = .decEnd → t.cur = t.root ∧ t.mode = .idle)) ∧
    (legalIn i s.mode = false → ∃ v, t = { s with fault := t.fault, rsp := s.rsp ++ [v] })

/-- 20_memory.md R51, 10_state.md R24, R25: the counter's commands write `MODE`, `ERR`, `FREQ` and `WLEN` only and
answer nothing; `BLD_END` writes `MODE`, the published state and `CUR` only and answers one word. -/
def Obligations.BuilderFrame : Prop :=
  (∀ i s t, (i = .bldBegin ∨ ∃ c, i = .bldSym c) → legalIn i s.mode = true → exec i s = .next t →
    t = { s with mode := t.mode, err := t.err, freq := t.freq, wlen := t.wlen }) ∧
  (∀ b s t, legalIn (.bldSym b) s.mode = true → exec (.bldSym b) s = .next t →
    ∀ c, c ≠ b → tableGet t.freq c = tableGet s.freq c) ∧
  (∀ s t, s.mode = .build → exec .bldEnd s = .next t →
    ∃ v, t = { s with mode := .idle, nsym := t.nsym, node := t.node, root := t.root, textLen := t.textLen,
                      code := t.code, cur := t.cur, rsp := s.rsp ++ [v] })

/-- 20_memory.md R55: a read changes no state but `FAULT` when rejected, and repeating it with no command between
gives the same response. -/
def Obligations.ReadsHaveNoSideEffect : Prop :=
  ∀ i s, ((∃ r, i = .rdReg r) ∨ ∃ c, i = .rdCode c) →
    ∃ ws t u, exec i s = .next t ∧ t = { s with fault := t.fault, rsp := s.rsp ++ ws } ∧
      (rejected i s = false → t.fault = s.fault) ∧
      exec i t = .next u ∧ u = { t with rsp := t.rsp ++ ws }

/-- 60_exceptions.md R209, 70_reset_and_hazards.md R233: from every state, sound or not, the step answers a next
state, and at most one END command brings the block to `IDLE`. -/
def Obligations.NoStuckState : Prop :=
  (∀ s, ∃ t, step s = .next t) ∧
  ∀ s, ∃ t, exec (closingCommand s.mode) s = .next t ∧ t.mode = .idle

/-- 10_state.md R36: `FREQ` and `WLEN` influence no command but the three of the builder, and `NODE` none but
`DEC_BIT` (`BLD_END` replaces it). -/
def Obligations.HiddenTablesUnobservable : Prop :=
  (∀ i (s t : State) f f' w w', i ≠ .bldBegin → (∀ c, i ≠ .bldSym c) → i ≠ .bldEnd →
    exec i { s with freq := f, wlen := w } = .next t →
    exec i { s with freq := f', wlen := w' } = .next { t with freq := f', wlen := w' }) ∧
  (∀ i (s t : State) ns ns', (∀ c, i ≠ .decBit c) → i ≠ .bldEnd →
    exec i { s with node := ns } = .next t →
    exec i { s with node := ns' } = .next { t with node := ns' })

/-- 30_encoding.md R86: the kinds and the number of the response words of every command, in order. -/
def Obligations.ResponseSequencePerCommand : Prop :=
  ∀ i s, ∃ t ws, exec i s = .next t ∧ t.rsp = s.rsp ++ ws ∧
    ws.map rspKindField = (responseKinds i s).map kindCode ∧ ∀ v ∈ ws, v.toNat / 256 % 16 = 0

/-! ### The host's calls -/

/-- 44_system.md R172 with 10_state.md R24, R26, R29: a build frame counts the text and publishes; a text longer than
`LEN_MAX` publishes nothing. -/
def Obligations.BuildCallCountsText : Prop :=
  ∀ s text, s.mode = .idle →
    (text.length ≤ s.lenW.lenMax → ∃ t, execAll (expandCall (.build text)) s = .next t ∧
      t.mode = .idle ∧ t.err = 0 ∧ t.rsp = s.rsp ++ [0x3000] ∧
      (∀ b, tableGet t.freq b = text.count b) ∧ t.wlen = text.length ∧ t.textLen = text.length ∧
      t.nsym.toNat = text.dedup.length) ∧
    (s.lenW.lenMax < text.length → ∃ t, execAll (expandCall (.build text)) s = .next t ∧
      t.mode = .idle ∧ t.err = 6 ∧ t.rsp = s.rsp ++ [0x3006] ∧
      t.nsym = s.nsym ∧ t.node = s.node ∧ t.root = s.root ∧ t.textLen = s.textLen ∧ t.code = s.code ∧
      t.cur = s.cur)

/-- 40_tree_builder.md R104, R107: the order of the symbols in the text does not matter. -/
def Obligations.BuildIgnoresTextOrder : Prop :=
  ∀ s t u, s.mode = .idle → t.Perm u → t.length ≤ s.lenW.lenMax →
    execAll (expandCall (.build t)) s = execAll (expandCall (.build u)) s

/-- 42_encoder.md R140: the frame computes the call-level function and changes nothing else; its responses are the
codes' bits up to the first offending symbol, then the status. -/
def Obligations.EncodeCallComputesR140 : Prop :=
  ∀ s text, s.mode = .idle →
    ∃ ws e, execAll (expandCall (.encode text)) s = .next { s with err := e, rsp := s.rsp ++ ws } ∧
      ws = (if s.nsym = 0 then [] else
          (text.takeWhile fun c => (tableGet s.code c).len != 0).flatMap fun c =>
            (codeChars (tableGet s.code c)).map (rspWord .bit)) ++ [rspWord .status (e.setWidth 8)] ∧
      (∀ out, encodeCall s text = .ok out → e = 0 ∧ frameResult .bit ws = some (.ok out)) ∧
      (∀ c, encodeCall s text = .error c →
        e = statusCode c ∧ frameResult .bit ws = some (.error (e.setWidth 8)))

/-- 43_decoder.md R157: the frame computes the call-level function, leaves the cursor at the root and changes nothing
else. -/
def Obligations.DecodeCallComputesR157 : Prop :=
  ∀ s bits, s.mode = .idle →
    ∃ ws e, execAll (expandCall (.decode bits)) s =
        .next { s with err := e, cur := s.root, rsp := s.rsp ++ ws } ∧
      (∀ out, decodeCall s bits = .ok out →
        e = 0 ∧ ws = out.map (rspWord .sym) ++ [0x3000] ∧ frameResult .sym ws = some (.ok out)) ∧
      (∀ c, decodeCall s bits = .error c →
        e = statusCode c ∧ frameResult .sym ws = some (.error (e.setWidth 8)))

/-- 41_code_table.md R127, 44_system.md R175: the snapshot returns the present symbols with their codes, and cannot
fail. -/
def Obligations.SnapshotReturnsCodeTable : Prop :=
  ∀ s, s.mode = .idle →
    ∃ ws, execAll (expandCall .snapshot) s = .next { s with rsp := s.rsp ++ ws } ∧
      readSnapshot allSymbols ws =
        (allSymbols.filter fun b => (tableGet s.code b).len != 0).map fun b =>
          (b, codeChars (tableGet s.code b))

/-- 44_system.md R176, the round-trip law, from every idle state and for every text that fits. -/
def Obligations.RoundTripLaw : Prop :=
  ∀ s text, s.mode = .idle → text.length ≤ s.lenW.lenMax →
    ∃ t u v bits ws ws', execAll (expandCall (.build text)) s = .next t ∧ t.rsp = s.rsp ++ [0x3000] ∧
      execAll (expandCall (.encode text)) t = .next u ∧ u.rsp = t.rsp ++ ws ∧
      frameResult .bit ws = some (.ok bits) ∧
      execAll (expandCall (.decode bits)) u = .next v ∧ v.rsp = u.rsp ++ ws' ∧
      frameResult .sym ws' = some (.ok text)

/-- 43_decoder.md R158, 44_system.md R176: under every sound published state, decoding answers exactly the text whose
encoding the bitstream is. -/
def Obligations.DecodeInvertsEncode : Prop :=
  ∀ s, Sound s → ∀ text bits, encodeCall s text = .ok bits ↔ decodeCall s bits = .ok text

/-- 43_decoder.md R159: which errors a decode call can raise under which tree. -/
def Obligations.DecodeErrorsByTree : Prop :=
  ∀ s bits c, decodeCall s bits = .error c →
    (s.nsym = 0 → c = .empty) ∧
    (s.nsym = 1 → c = .badBit ∨ c = .noCode) ∧
    (2 ≤ s.nsym.toNat → c = .badBit ∨ c = .trunc) ∧
    (Sound s → s.nsym = 2 → c ≠ .trunc)

/-- 44_system.md R181: a text of one symbol repeated encodes to as many '0' characters. -/
def Obligations.OneSymbolTextEncodesToZeros : Prop :=
  ∀ s a n, s.mode = .idle → 1 ≤ n → n ≤ s.lenW.lenMax →
    ∃ t u ws, execAll (expandCall (.build (List.replicate n a))) s = .next t ∧
      execAll (expandCall (.encode (List.replicate n a))) t = .next u ∧ u.rsp = t.rsp ++ ws ∧
      frameResult .bit ws = some (.ok (List.replicate n 0x30))

/-- 70_reset_and_hazards.md R220: the empty build frame leaves every element at its reset value except `FAULT`. -/
def Obligations.EmptyBuildFrameNearlyResets : Prop :=
  ∀ s, s.mode = .idle →
    execAll (expandCall (.build [])) s = .next
      { State.resetWith s.lenW with fault := s.fault, host := s.host, rsp := s.rsp ++ [0x3000] }
end

