-- ==== Sys2Proof/Laws/PerInstr.lean ====
section
/-! SUPPORT. The per-instruction family `EncodeWord`: what number the encoder gives each command
(30_encoding.md R71, R74). -/

namespace Sys2Proof.Laws.EncodeWord

/-- The opcode of a command (R74). -/
def opcode : Instr → Nat
  | .nop => 0 | .bldBegin => 1 | .bldSym _ => 2 | .bldEnd => 3 | .encBegin => 4 | .encSym _ => 5
  | .encEnd => 6 | .decBegin => 7 | .decBit _ => 8 | .decEnd => 9 | .rdCode _ => 10 | .rdReg _ => 11

/-- The operand byte of a command, 0 where it has none (R72). -/
def operand : Instr → Nat
  | .bldSym b => b.toNat
  | .encSym b => b.toNat
  | .decBit b => b.toNat
  | .rdCode b => b.toNat
  | .rdReg b => b.toNat
  | _ => 0

/-- The command's word is its opcode in bits 15:12, 0 in bits 11:8, its operand in bits 7:0. -/
def Statement (i : Instr) : Prop := (encode i).toNat = opcode i * 4096 + operand i

/-- The number of a command word made of an opcode and an operand byte. -/
theorem commandWord_toNat (op : BitVec 4) (b : Byte) : (commandWord op b).toNat = op.toNat * 4096 + b.toNat := by
  have h := b.isLt
  simp only [commandWord, BitVec.toNat_append, BitVec.toNat_ofNat]
  rw [← Nat.shiftLeft_add_eq_or_of_lt h]
  simp only [Nat.shiftLeft_eq, Nat.zero_mod, Nat.or_zero]
  omega

theorem nop : Statement .nop := commandWord_toNat _ _
theorem bldBegin : Statement .bldBegin := commandWord_toNat _ _
theorem bldSym (sym : Byte) : Statement (.bldSym sym) := commandWord_toNat _ _
theorem bldEnd : Statement .bldEnd := commandWord_toNat _ _
theorem encBegin : Statement .encBegin := commandWord_toNat _ _
theorem encSym (sym : Byte) : Statement (.encSym sym) := commandWord_toNat _ _
theorem encEnd : Statement .encEnd := commandWord_toNat _ _
theorem decBegin : Statement .decBegin := commandWord_toNat _ _
theorem decBit (chr : Byte) : Statement (.decBit chr) := commandWord_toNat _ _
theorem decEnd : Statement .decEnd := commandWord_toNat _ _
theorem rdCode (sym : Byte) : Statement (.rdCode sym) := commandWord_toNat _ _
theorem rdReg (reg : Byte) : Statement (.rdReg reg) := commandWord_toNat _ _

end Sys2Proof.Laws.EncodeWord
end

