-- ==== Sys2Proof/Laws/State.lean ====
section
/-! SUPPORT. One lemma per field per named update of the state, each true by `rfl`: what the update makes of the
field, or that it leaves the field alone. Later proofs rewrite with these and unfold no record update. -/

namespace Sys2Proof.Machine

/-! ### emit -/

@[simp] theorem emit_lenW (k : RspKind) (d : Byte) (s : State) : (emit k d s).lenW = s.lenW := rfl
@[simp] theorem emit_mode (k : RspKind) (d : Byte) (s : State) : (emit k d s).mode = s.mode := rfl
@[simp] theorem emit_err (k : RspKind) (d : Byte) (s : State) : (emit k d s).err = s.err := rfl
@[simp] theorem emit_fault (k : RspKind) (d : Byte) (s : State) : (emit k d s).fault = s.fault := rfl
@[simp] theorem emit_freq (k : RspKind) (d : Byte) (s : State) : (emit k d s).freq = s.freq := rfl
@[simp] theorem emit_wlen (k : RspKind) (d : Byte) (s : State) : (emit k d s).wlen = s.wlen := rfl
@[simp] theorem emit_nsym (k : RspKind) (d : Byte) (s : State) : (emit k d s).nsym = s.nsym := rfl
@[simp] theorem emit_node (k : RspKind) (d : Byte) (s : State) : (emit k d s).node = s.node := rfl
@[simp] theorem emit_root (k : RspKind) (d : Byte) (s : State) : (emit k d s).root = s.root := rfl
@[simp] theorem emit_textLen (k : RspKind) (d : Byte) (s : State) : (emit k d s).textLen = s.textLen := rfl
@[simp] theorem emit_code (k : RspKind) (d : Byte) (s : State) : (emit k d s).code = s.code := rfl
@[simp] theorem emit_cur (k : RspKind) (d : Byte) (s : State) : (emit k d s).cur = s.cur := rfl
@[simp] theorem emit_host (k : RspKind) (d : Byte) (s : State) : (emit k d s).host = s.host := rfl
@[simp] theorem emit_rsp (k : RspKind) (d : Byte) (s : State) : (emit k d s).rsp = s.rsp ++ [rspWord k d] := rfl

/-! ### emitAll -/

@[simp] theorem emitAll_lenW (k : RspKind) (ds : List Byte) (s : State) : (emitAll k ds s).lenW = s.lenW := rfl
@[simp] theorem emitAll_mode (k : RspKind) (ds : List Byte) (s : State) : (emitAll k ds s).mode = s.mode := rfl
@[simp] theorem emitAll_err (k : RspKind) (ds : List Byte) (s : State) : (emitAll k ds s).err = s.err := rfl
@[simp] theorem emitAll_fault (k : RspKind) (ds : List Byte) (s : State) : (emitAll k ds s).fault = s.fault := rfl
@[simp] theorem emitAll_freq (k : RspKind) (ds : List Byte) (s : State) : (emitAll k ds s).freq = s.freq := rfl
@[simp] theorem emitAll_wlen (k : RspKind) (ds : List Byte) (s : State) : (emitAll k ds s).wlen = s.wlen := rfl
@[simp] theorem emitAll_nsym (k : RspKind) (ds : List Byte) (s : State) : (emitAll k ds s).nsym = s.nsym := rfl
@[simp] theorem emitAll_node (k : RspKind) (ds : List Byte) (s : State) : (emitAll k ds s).node = s.node := rfl
@[simp] theorem emitAll_root (k : RspKind) (ds : List Byte) (s : State) : (emitAll k ds s).root = s.root := rfl
@[simp] theorem emitAll_textLen (k : RspKind) (ds : List Byte) (s : State) : (emitAll k ds s).textLen = s.textLen := rfl
@[simp] theorem emitAll_code (k : RspKind) (ds : List Byte) (s : State) : (emitAll k ds s).code = s.code := rfl
@[simp] theorem emitAll_cur (k : RspKind) (ds : List Byte) (s : State) : (emitAll k ds s).cur = s.cur := rfl
@[simp] theorem emitAll_host (k : RspKind) (ds : List Byte) (s : State) : (emitAll k ds s).host = s.host := rfl
@[simp] theorem emitAll_rsp (k : RspKind) (ds : List Byte) (s : State) : (emitAll k ds s).rsp = s.rsp ++ ds.map (rspWord k) := rfl

/-! ### frameError -/

@[simp] theorem frameError_lenW (c : Status) (s : State) : (frameError c s).lenW = s.lenW := rfl
@[simp] theorem frameError_mode (c : Status) (s : State) : (frameError c s).mode = s.mode := rfl
@[simp] theorem frameError_err (c : Status) (s : State) : (frameError c s).err = statusCode c := rfl
@[simp] theorem frameError_fault (c : Status) (s : State) : (frameError c s).fault = s.fault := rfl
@[simp] theorem frameError_freq (c : Status) (s : State) : (frameError c s).freq = s.freq := rfl
@[simp] theorem frameError_wlen (c : Status) (s : State) : (frameError c s).wlen = s.wlen := rfl
@[simp] theorem frameError_nsym (c : Status) (s : State) : (frameError c s).nsym = s.nsym := rfl
@[simp] theorem frameError_node (c : Status) (s : State) : (frameError c s).node = s.node := rfl
@[simp] theorem frameError_root (c : Status) (s : State) : (frameError c s).root = s.root := rfl
@[simp] theorem frameError_textLen (c : Status) (s : State) : (frameError c s).textLen = s.textLen := rfl
@[simp] theorem frameError_code (c : Status) (s : State) : (frameError c s).code = s.code := rfl
@[simp] theorem frameError_cur (c : Status) (s : State) : (frameError c s).cur = s.cur := rfl
@[simp] theorem frameError_host (c : Status) (s : State) : (frameError c s).host = s.host := rfl
@[simp] theorem frameError_rsp (c : Status) (s : State) : (frameError c s).rsp = s.rsp := rfl

/-! ### raiseFault -/

@[simp] theorem raiseFault_lenW (c : CmdFault) (s : State) : (raiseFault c s).lenW = s.lenW := rfl
@[simp] theorem raiseFault_mode (c : CmdFault) (s : State) : (raiseFault c s).mode = s.mode := rfl
@[simp] theorem raiseFault_err (c : CmdFault) (s : State) : (raiseFault c s).err = s.err := rfl
@[simp] theorem raiseFault_fault (c : CmdFault) (s : State) : (raiseFault c s).fault = faultCode c := rfl
@[simp] theorem raiseFault_freq (c : CmdFault) (s : State) : (raiseFault c s).freq = s.freq := rfl
@[simp] theorem raiseFault_wlen (c : CmdFault) (s : State) : (raiseFault c s).wlen = s.wlen := rfl
@[simp] theorem raiseFault_nsym (c : CmdFault) (s : State) : (raiseFault c s).nsym = s.nsym := rfl
@[simp] theorem raiseFault_node (c : CmdFault) (s : State) : (raiseFault c s).node = s.node := rfl
@[simp] theorem raiseFault_root (c : CmdFault) (s : State) : (raiseFault c s).root = s.root := rfl
@[simp] theorem raiseFault_textLen (c : CmdFault) (s : State) : (raiseFault c s).textLen = s.textLen := rfl
@[simp] theorem raiseFault_code (c : CmdFault) (s : State) : (raiseFault c s).code = s.code := rfl
@[simp] theorem raiseFault_cur (c : CmdFault) (s : State) : (raiseFault c s).cur = s.cur := rfl
@[simp] theorem raiseFault_host (c : CmdFault) (s : State) : (raiseFault c s).host = s.host := rfl
@[simp] theorem raiseFault_rsp (c : CmdFault) (s : State) : (raiseFault c s).rsp = s.rsp ++ [rspWord .fault ((faultCode c).setWidth 8)] := rfl

/-! ### openFrame -/

@[simp] theorem openFrame_lenW (m : Mode) (s : State) : (openFrame m s).lenW = s.lenW := rfl
@[simp] theorem openFrame_mode (m : Mode) (s : State) : (openFrame m s).mode = m := rfl
@[simp] theorem openFrame_err (m : Mode) (s : State) : (openFrame m s).err = 0 := rfl
@[simp] theorem openFrame_fault (m : Mode) (s : State) : (openFrame m s).fault = s.fault := rfl
@[simp] theorem openFrame_freq (m : Mode) (s : State) : (openFrame m s).freq = s.freq := rfl
@[simp] theorem openFrame_wlen (m : Mode) (s : State) : (openFrame m s).wlen = s.wlen := rfl
@[simp] theorem openFrame_nsym (m : Mode) (s : State) : (openFrame m s).nsym = s.nsym := rfl
@[simp] theorem openFrame_node (m : Mode) (s : State) : (openFrame m s).node = s.node := rfl
@[simp] theorem openFrame_root (m : Mode) (s : State) : (openFrame m s).root = s.root := rfl
@[simp] theorem openFrame_textLen (m : Mode) (s : State) : (openFrame m s).textLen = s.textLen := rfl
@[simp] theorem openFrame_code (m : Mode) (s : State) : (openFrame m s).code = s.code := rfl
@[simp] theorem openFrame_cur (m : Mode) (s : State) : (openFrame m s).cur = s.cur := rfl
@[simp] theorem openFrame_host (m : Mode) (s : State) : (openFrame m s).host = s.host := rfl
@[simp] theorem openFrame_rsp (m : Mode) (s : State) : (openFrame m s).rsp = s.rsp := rfl

/-! ### closeFrame -/

@[simp] theorem closeFrame_lenW (s : State) : (closeFrame s).lenW = s.lenW := rfl
@[simp] theorem closeFrame_mode (s : State) : (closeFrame s).mode = .idle := rfl
@[simp] theorem closeFrame_err (s : State) : (closeFrame s).err = s.err := rfl
@[simp] theorem closeFrame_fault (s : State) : (closeFrame s).fault = s.fault := rfl
@[simp] theorem closeFrame_freq (s : State) : (closeFrame s).freq = s.freq := rfl
@[simp] theorem closeFrame_wlen (s : State) : (closeFrame s).wlen = s.wlen := rfl
@[simp] theorem closeFrame_nsym (s : State) : (closeFrame s).nsym = s.nsym := rfl
@[simp] theorem closeFrame_node (s : State) : (closeFrame s).node = s.node := rfl
@[simp] theorem closeFrame_root (s : State) : (closeFrame s).root = s.root := rfl
@[simp] theorem closeFrame_textLen (s : State) : (closeFrame s).textLen = s.textLen := rfl
@[simp] theorem closeFrame_code (s : State) : (closeFrame s).code = s.code := rfl
@[simp] theorem closeFrame_cur (s : State) : (closeFrame s).cur = s.cur := rfl
@[simp] theorem closeFrame_host (s : State) : (closeFrame s).host = s.host := rfl
@[simp] theorem closeFrame_rsp (s : State) : (closeFrame s).rsp = s.rsp ++ [rspWord .status (s.err.setWidth 8)] := rfl

/-! ### publish -/

@[simp] theorem publish_lenW (n : NodeIdx) (ns : List Node) (r : NodeIdx) (l : Nat) (c : Table CodeEntry) (s : State) : (publish n ns r l c s).lenW = s.lenW := rfl
@[simp] theorem publish_mode (n : NodeIdx) (ns : List Node) (r : NodeIdx) (l : Nat) (c : Table CodeEntry) (s : State) : (publish n ns r l c s).mode = s.mode := rfl
@[simp] theorem publish_err (n : NodeIdx) (ns : List Node) (r : NodeIdx) (l : Nat) (c : Table CodeEntry) (s : State) : (publish n ns r l c s).err = s.err := rfl
@[simp] theorem publish_fault (n : NodeIdx) (ns : List Node) (r : NodeIdx) (l : Nat) (c : Table CodeEntry) (s : State) : (publish n ns r l c s).fault = s.fault := rfl
@[simp] theorem publish_freq (n : NodeIdx) (ns : List Node) (r : NodeIdx) (l : Nat) (c : Table CodeEntry) (s : State) : (publish n ns r l c s).freq = s.freq := rfl
@[simp] theorem publish_wlen (n : NodeIdx) (ns : List Node) (r : NodeIdx) (l : Nat) (c : Table CodeEntry) (s : State) : (publish n ns r l c s).wlen = s.wlen := rfl
@[simp] theorem publish_nsym (n : NodeIdx) (ns : List Node) (r : NodeIdx) (l : Nat) (c : Table CodeEntry) (s : State) : (publish n ns r l c s).nsym = n := rfl
@[simp] theorem publish_node (n : NodeIdx) (ns : List Node) (r : NodeIdx) (l : Nat) (c : Table CodeEntry) (s : State) : (publish n ns r l c s).node = ns := rfl
@[simp] theorem publish_root (n : NodeIdx) (ns : List Node) (r : NodeIdx) (l : Nat) (c : Table CodeEntry) (s : State) : (publish n ns r l c s).root = r := rfl
@[simp] theorem publish_textLen (n : NodeIdx) (ns : List Node) (r : NodeIdx) (l : Nat) (c : Table CodeEntry) (s : State) : (publish n ns r l c s).textLen = l := rfl
@[simp] theorem publish_code (n : NodeIdx) (ns : List Node) (r : NodeIdx) (l : Nat) (c : Table CodeEntry) (s : State) : (publish n ns r l c s).code = c := rfl
@[simp] theorem publish_cur (n : NodeIdx) (ns : List Node) (r : NodeIdx) (l : Nat) (c : Table CodeEntry) (s : State) : (publish n ns r l c s).cur = r := rfl
@[simp] theorem publish_host (n : NodeIdx) (ns : List Node) (r : NodeIdx) (l : Nat) (c : Table CodeEntry) (s : State) : (publish n ns r l c s).host = s.host := rfl
@[simp] theorem publish_rsp (n : NodeIdx) (ns : List Node) (r : NodeIdx) (l : Nat) (c : Table CodeEntry) (s : State) : (publish n ns r l c s).rsp = s.rsp := rfl

/-! ### takeResponse -/

@[simp] theorem takeResponse_lenW (s : State) : (takeResponse s).lenW = s.lenW := rfl
@[simp] theorem takeResponse_mode (s : State) : (takeResponse s).mode = s.mode := rfl
@[simp] theorem takeResponse_err (s : State) : (takeResponse s).err = s.err := rfl
@[simp] theorem takeResponse_fault (s : State) : (takeResponse s).fault = s.fault := rfl
@[simp] theorem takeResponse_freq (s : State) : (takeResponse s).freq = s.freq := rfl
@[simp] theorem takeResponse_wlen (s : State) : (takeResponse s).wlen = s.wlen := rfl
@[simp] theorem takeResponse_nsym (s : State) : (takeResponse s).nsym = s.nsym := rfl
@[simp] theorem takeResponse_node (s : State) : (takeResponse s).node = s.node := rfl
@[simp] theorem takeResponse_root (s : State) : (takeResponse s).root = s.root := rfl
@[simp] theorem takeResponse_textLen (s : State) : (takeResponse s).textLen = s.textLen := rfl
@[simp] theorem takeResponse_code (s : State) : (takeResponse s).code = s.code := rfl
@[simp] theorem takeResponse_cur (s : State) : (takeResponse s).cur = s.cur := rfl
@[simp] theorem takeResponse_host (s : State) : (takeResponse s).host = s.host := rfl
@[simp] theorem takeResponse_rsp (s : State) : (takeResponse s).rsp = s.rsp.tail := rfl

/-! ### offerWord -/

@[simp] theorem offerWord_lenW (w : Word) (s : State) : (offerWord w s).lenW = s.lenW := rfl
@[simp] theorem offerWord_mode (w : Word) (s : State) : (offerWord w s).mode = s.mode := rfl
@[simp] theorem offerWord_err (w : Word) (s : State) : (offerWord w s).err = s.err := rfl
@[simp] theorem offerWord_fault (w : Word) (s : State) : (offerWord w s).fault = s.fault := rfl
@[simp] theorem offerWord_freq (w : Word) (s : State) : (offerWord w s).freq = s.freq := rfl
@[simp] theorem offerWord_wlen (w : Word) (s : State) : (offerWord w s).wlen = s.wlen := rfl
@[simp] theorem offerWord_nsym (w : Word) (s : State) : (offerWord w s).nsym = s.nsym := rfl
@[simp] theorem offerWord_node (w : Word) (s : State) : (offerWord w s).node = s.node := rfl
@[simp] theorem offerWord_root (w : Word) (s : State) : (offerWord w s).root = s.root := rfl
@[simp] theorem offerWord_textLen (w : Word) (s : State) : (offerWord w s).textLen = s.textLen := rfl
@[simp] theorem offerWord_code (w : Word) (s : State) : (offerWord w s).code = s.code := rfl
@[simp] theorem offerWord_cur (w : Word) (s : State) : (offerWord w s).cur = s.cur := rfl
@[simp] theorem offerWord_host (w : Word) (s : State) : (offerWord w s).host = .cmd w :: s.host := rfl
@[simp] theorem offerWord_rsp (w : Word) (s : State) : (offerWord w s).rsp = s.rsp := rfl

/-! ### hostReset -/

@[simp] theorem hostReset_lenW (s : State) : (hostReset s).lenW = s.lenW := rfl
@[simp] theorem hostReset_mode (s : State) : (hostReset s).mode = .idle := rfl
@[simp] theorem hostReset_err (s : State) : (hostReset s).err = 0 := rfl
@[simp] theorem hostReset_fault (s : State) : (hostReset s).fault = 0 := rfl
@[simp] theorem hostReset_freq (s : State) : (hostReset s).freq = Vector.replicate 256 0 := rfl
@[simp] theorem hostReset_wlen (s : State) : (hostReset s).wlen = 0 := rfl
@[simp] theorem hostReset_nsym (s : State) : (hostReset s).nsym = 0 := rfl
@[simp] theorem hostReset_node (s : State) : (hostReset s).node = [] := rfl
@[simp] theorem hostReset_root (s : State) : (hostReset s).root = 0 := rfl
@[simp] theorem hostReset_textLen (s : State) : (hostReset s).textLen = 0 := rfl
@[simp] theorem hostReset_code (s : State) : (hostReset s).code = Vector.replicate 256 CodeEntry.absent := rfl
@[simp] theorem hostReset_cur (s : State) : (hostReset s).cur = 0 := rfl
@[simp] theorem hostReset_host (s : State) : (hostReset s).host = s.host := rfl
@[simp] theorem hostReset_rsp (s : State) : (hostReset s).rsp = [] := rfl

end Sys2Proof.Machine
end

