-- ==== Sys2Proof/Laws/Ops.lean ====
section
/-! SUPPORT. One lemma for each shared operation, saying once what it can do; later proofs cite these and do not
unfold the operation. -/

namespace Sys2Proof.Machine

/-! ### Tables -/

@[simp] theorem tableGet_tableSet_self {α : Type} (t : Table α) (s : Byte) (v : α) :
    tableGet (tableSet t s v) s = v := by
  simp [tableGet, tableSet]

theorem tableGet_tableSet_other {α : Type} (t : Table α) {s r : Byte} (v : α) (h : r ≠ s) :
    tableGet (tableSet t s v) r = tableGet t r := by
  have hne : s.toNat ≠ r.toNat := fun e => h (BitVec.eq_of_toNat_eq e.symm)
  simp [tableGet, tableSet, hne]

@[simp] theorem tableGet_replicate {α : Type} (s : Byte) (v : α) :
    tableGet (Vector.replicate 256 v) s = v := by
  simp [tableGet]

@[simp] theorem tableGet_noCodes (s : Byte) : tableGet noCodes s = CodeEntry.absent := by
  simp [noCodes]

/-- Two tables that answer every read alike are equal. -/
theorem table_ext {α : Type} {t u : Table α} (h : ∀ s, tableGet t s = tableGet u s) : t = u := by
  ext k hk
  have hs := h (BitVec.ofNat 8 k)
  have hm : k % 256 = k := Nat.mod_eq_of_lt hk
  simpa [tableGet, BitVec.toNat_ofNat, hm] using hs

theorem mem_allSymbols (s : Byte) : s ∈ allSymbols := by
  refine List.mem_map.2 ⟨s.toNat, List.mem_range.2 ?_, ?_⟩
  · have := s.isLt; omega
  · simp

/-- The symbols come in strictly ascending order. -/
theorem allSymbols_ascending : allSymbols.Pairwise (· < ·) := by
  rw [allSymbols, List.pairwise_map]
  refine List.pairwise_lt_range.imp_of_mem ?_
  intro a b ha hb hab
  rw [List.mem_range] at ha hb
  have h1 : a % 2 ^ 8 = a := Nat.mod_eq_of_lt ha
  have h2 : b % 2 ^ 8 = b := Nat.mod_eq_of_lt hb
  rw [BitVec.lt_def, BitVec.toNat_ofNat, BitVec.toNat_ofNat, h1, h2]
  exact hab

/-! ### Counts -/

/-- An addition whose exact sum fits the width is exact. -/
theorem addCount_of_le {w : LenW} {a b : Nat} (h : a + b ≤ w.lenMax) : addCount w a b = a + b := by
  refine Nat.mod_eq_of_lt ?_
  have hp : 0 < 2 ^ w.bits := Nat.two_pow_pos _
  have : w.lenMax = 2 ^ w.bits - 1 := rfl
  omega

/-! ### The node arena -/

theorem nodeAt_of_lt {ns : List Node} {k : NodeIdx} (h : k.toNat < ns.length) : nodeAt ns k = ns[k.toNat] := by
  simp [nodeAt, List.getElem?_eq_getElem h]

@[simp] theorem child_false (n : Node) : child n false = n.left := rfl
@[simp] theorem child_true (n : Node) : child n true = n.right := rfl

/-! ### Response words -/

/-- A response word as a number: its kind in bits 15:12, its data byte in bits 7:0. -/
theorem rspWord_toNat (k : RspKind) (d : Byte) : (rspWord k d).toNat = (kindCode k).toNat * 4096 + d.toNat :=
  Laws.EncodeWord.commandWord_toNat (kindCode k) d

@[simp] theorem rspKindField_rspWord (k : RspKind) (d : Byte) : rspKindField (rspWord k d) = kindCode k := by
  apply BitVec.eq_of_toNat_eq
  have := d.isLt
  have := (kindCode k).isLt
  rw [rspKindField, BitVec.extractLsb'_toNat, rspWord_toNat, Nat.shiftRight_eq_div_pow]
  omega

@[simp] theorem rspData_rspWord (k : RspKind) (d : Byte) : rspData (rspWord k d) = d := by
  apply BitVec.eq_of_toNat_eq
  have := d.isLt
  rw [rspData, BitVec.extractLsb'_toNat, rspWord_toNat, Nat.shiftRight_eq_div_pow]
  omega

theorem kindCode_injective {j k : RspKind} (h : kindCode j = kindCode k) : j = k := by
  cases j <;> cases k <;> first | rfl | exact absurd h (by decide)

/-! ### Operand bytes -/

@[simp] theorem charBit_bitChar (b : Bool) : charBit (bitChar b) = some b := by cases b <;> rfl

theorem charBit_eq_some {c : Byte} {b : Bool} (h : charBit c = some b) : c = bitChar b := by
  unfold charBit at h
  split at h
  · cases h; assumption
  · split at h
    · cases h; assumption
    · cases h

/-- A code whose length field is its length is emitted as it stands. -/
theorem codeBits_of_len {e : CodeEntry} (h : e.len.toNat = e.bits.length) : codeBits e = e.bits := by
  refine List.ext_getElem (by simp [codeBits, h]) ?_
  intro i h1 h2
  simp [codeBits, List.getD_eq_getElem?_getD, List.getElem?_eq_getElem h2]

@[simp] theorem codeChars_length (e : CodeEntry) : (codeChars e).length = e.len.toNat := by
  simp [codeChars, codeBits]

/-! ### The register map -/

/-- A register number is readable exactly when it is assigned (10_state.md R35). -/
theorem regRead_isSome (r : Byte) (s : State) : (regRead r s).isSome = regAssigned s.lenW r := by
  unfold regRead regAssigned
  rcases Nat.lt_or_ge r.toNat 8 with h | h
  · generalize r.toNat = n at *
    interval_cases n <;> rfl
  · obtain ⟨n, hn⟩ := Nat.exists_eq_add_of_le' h
    rw [hn]
    by_cases hb : n < s.lenW.bytes
    · have : n + 8 < 8 + s.lenW.bytes := by omega
      simp [hb, this]
    · have : ¬ n + 8 < 8 + s.lenW.bytes := by omega
      simp [hb, this]

/-! ### Frames -/

/-- A command legal in one mode: its effect there, F_SEQ elsewhere. -/
theorem inMode_eq (m : Mode) (body : State → State) (s : State) :
    inMode m body s = .next (if s.mode = m then body s else raiseFault .seq s) := by
  unfold inMode
  split <;> rfl

/-- A data command's body runs when no error is pending and does nothing otherwise. -/
theorem unlessError_eq (body : State → State) (s : State) :
    unlessError body s = if s.err = 0 then body s else s := by
  unfold unlessError
  by_cases h : s.err = 0 <;> simp [h]

/-! ### The step -/

/-- Everything a step can do: wait, hand over a response, reset, execute a command, or reject a word. -/
theorem step_cases {s t : State} (h : step s = .next t) :
    (s.host = [] ∧ t = s) ∨
    (∃ rest, s.host = .take :: rest ∧ t = takeResponse { s with host := rest }) ∨
    (∃ rest, s.host = .rst :: rest ∧ t = hostReset { s with host := rest }) ∨
    (∃ w rest i, s.host = .cmd w :: rest ∧ decode w = .ok i ∧ exec i { s with host := rest } = .next t) ∨
    (∃ w rest e, s.host = .cmd w :: rest ∧ decode w = .error e ∧
      t = raiseFault .illegal { s with host := rest }) := by
  unfold step at h
  split at h
  case h_1 hh => exact .inl ⟨hh, by cases h; rfl⟩
  case h_2 rest hh => exact .inr (.inl ⟨rest, hh, by cases h; rfl⟩)
  case h_3 rest hh => exact .inr (.inr (.inl ⟨rest, hh, by cases h; rfl⟩))
  case h_4 w rest hh =>
    split at h
    case h_1 i hd => exact .inr (.inr (.inr (.inl ⟨w, rest, i, hh, hd, h⟩)))
    case h_2 e hd => exact .inr (.inr (.inr (.inr ⟨w, rest, e, hh, hd, by cases h; rfl⟩)))

/-- Everything an executed or rejected command can do, by command. -/
theorem exec_eq (i : Instr) (s : State) :
    exec i s = .next (if rejected i s then raiseFault (if legalIn i s.mode then .reg else .seq) s else
      match i with
      | .nop => s
      | .bldBegin => { openFrame .build s with freq := Vector.replicate 256 0, wlen := 0 }
      | .bldSym c => unlessError (countSymbol c) s
      | .bldEnd => closeFrame (unlessError buildAndPublish s)
      | .encBegin => openFrame .encode s
      | .encSym c => unlessError (encodeSymbol c) s
      | .encEnd => closeFrame s
      | .decBegin => { openFrame .decode s with cur := s.root }
      | .decBit c => unlessError (decodeChar c) s
      | .decEnd => { closeFrame (checkTruncation s) with cur := s.root }
      | .rdCode c => emitCode (tableGet s.code c) s
      | .rdReg r => emit .reg ((regRead r s).getD 0) s) := by
  cases i
  case rdReg r =>
    have h := regRead_isSome r s
    simp only [exec, execRdReg, rejected, legalIn]
    cases hr : regRead r s <;> simp_all
  all_goals
    simp only [exec, execNop, execBldBegin, execBldSym, execBldEnd, execEncBegin, execEncSym, execEncEnd,
      execDecBegin, execDecBit, execDecEnd, execRdCode, inMode_eq, rejected, legalIn]
    first | rfl | (split <;> simp_all)

end Sys2Proof.Machine
end

