-- ==== Sys2Proof/Laws/Engine.lean ====
section
/-! SUPPORT. What the steps of the merge engine and of the traversal can do (40_tree_builder.md R104 to R108,
41_code_table.md R121), said once. -/

namespace Sys2Proof.Machine

/-! ### Leaf enumeration -/

theorem mem_enumerateLeaves {freq : Table Nat} {nd : Node} :
    nd ∈ enumerateLeaves freq ↔ ∃ s, 1 ≤ tableGet freq s ∧ nd = leafNode s (tableGet freq s) := by
  rw [enumerateLeaves, List.mem_filterMap]
  constructor
  · rintro ⟨s, -, hs⟩
    split at hs
    · exact ⟨s, ‹_›, by cases hs; rfl⟩
    · cases hs
  · rintro ⟨s, h, rfl⟩
    exact ⟨s, mem_allSymbols s, by simp [h]⟩

/-! ### The order of keys and the removal of the least -/

theorem keyLt_iff {a b : Key} : keyLt a b = true ↔ a.1 < b.1 ∨ (a.1 = b.1 ∧ a.2 < b.2) := by
  simp [keyLt]

theorem keyLt_irrefl (a : Key) : keyLt a a = false := by simp [keyLt]

theorem keyLt_trans {a b c : Key} (h : keyLt a b = true) (h' : keyLt b c = true) : keyLt a c = true := by
  rw [keyLt_iff] at *
  omega

theorem keyLt_total {a b : Key} (h : keyLt a b = false) : a = b ∨ keyLt b a = true := by
  have h' : ¬ keyLt a b = true := by simp [h]
  rw [keyLt_iff] at h' ⊢
  rcases a with ⟨a₁, a₂⟩
  rcases b with ⟨b₁, b₂⟩
  simp only [Prod.mk.injEq] at *
  omega

@[simp] theorem popMin_eq_none {q : List Key} : popMin q = none ↔ q = [] := by
  cases q with
  | nil => simp [popMin]
  | cons k ks =>
    simp only [popMin, reduceCtorEq, iff_false]
    split
    · simp
    · split <;> simp

/-- A removal takes one key out and leaves the others. -/
theorem popMin_perm {q rest : List Key} {m : Key} (h : popMin q = some (m, rest)) : q.Perm (m :: rest) := by
  induction q generalizing m rest with
  | nil => simp [popMin] at h
  | cons k ks ih =>
    simp only [popMin] at h
    split at h
    · rename_i hn
      cases h
      rw [popMin_eq_none.1 hn]
    · rename_i m' rest' hr
      split at h
      · cases h; exact List.Perm.refl _
      · cases h
        exact ((ih hr).cons k).trans (List.Perm.swap m k rest')

/-- No key left is before the one removed. -/
theorem popMin_least {q rest : List Key} {m : Key} (h : popMin q = some (m, rest)) :
    ∀ k ∈ rest, keyLt k m = false := by
  induction q generalizing m rest with
  | nil => simp [popMin] at h
  | cons k ks ih =>
    simp only [popMin] at h
    split at h
    · cases h; simp
    · rename_i m' rest' hr
      split at h
      · rename_i hlt
        cases h
        intro x hx
        by_contra hc
        have hxm : keyLt x k = true := by simpa using hc
        rcases List.mem_cons.1 ((popMin_perm hr).subset hx) with rfl | hx'
        · exact absurd (keyLt_trans hlt hxm) (by simp [keyLt_irrefl])
        · exact absurd (keyLt_trans hxm hlt) (by simp [ih hr x hx'])
      · rename_i hlt
        cases h
        intro x hx
        rcases List.mem_cons.1 hx with rfl | hx'
        · simpa using hlt
        · exact ih hr x hx'

theorem popMin_length {q rest : List Key} {m : Key} (h : popMin q = some (m, rest)) :
    q.length = rest.length + 1 := by
  simpa using (popMin_perm h).length_eq

/-! ### The merge loop -/

/-- Whatever every turn keeps, the loop keeps. -/
theorem mergeLoop_keeps {w : LenW} {P : List Node → List Key → Prop}
    (turn : ∀ ns q i q₁ j q₂, P ns q → popMin q = some (i, q₁) → popMin q₁ = some (j, q₂) →
      P (mergePair w ns q₂ i j).1 (mergePair w ns q₂ i j).2)
    (f : Nat) (ns : List Node) (q : List Key) (h : P ns q) :
    P (mergeLoop w f ns q).1 (mergeLoop w f ns q).2 := by
  induction f generalizing ns q with
  | zero => exact h
  | succ f ih =>
    simp only [mergeLoop]
    split
    · exact h
    · split
      · exact h
      · rename_i i q₁ h₁ _ j q₂ h₂
        exact ih _ _ (turn ns q i q₁ j q₂ h h₁ h₂)

/-- Every turn makes the collection one smaller, and adds one node to the arena. -/
theorem mergePair_length {w : LenW} {ns : List Node} {q q₁ q₂ : List Key} {i j : Key}
    (h₁ : popMin q = some (i, q₁)) (h₂ : popMin q₁ = some (j, q₂)) :
    (mergePair w ns q₂ i j).1.length = ns.length + 1 ∧ (mergePair w ns q₂ i j).2.length + 1 = q.length := by
  have a := popMin_length h₁
  have b := popMin_length h₂
  simp only [mergePair, List.length_append, List.length_singleton]
  exact ⟨trivial, by omega⟩

/-- With as many turns as keys the loop leaves at most one node in the collection (R105, R115). -/
theorem mergeLoop_collection_small {w : LenW} (f : Nat) (ns : List Node) (q : List Key) (h : q.length ≤ f + 1) :
    (mergeLoop w f ns q).2.length ≤ 1 := by
  induction f generalizing ns q with
  | zero => exact h
  | succ f ih =>
    simp only [mergeLoop]
    split
    · rename_i hn
      simp [popMin_eq_none.1 hn]
    · rename_i i q₁ h₁
      split
      · rename_i hn
        have := popMin_length h₁
        simp only [popMin_eq_none.1 hn, List.length_nil] at this
        simp [this]
      · rename_i j q₂ h₂
        have := (mergePair_length (w := w) (ns := ns) h₁ h₂).2
        exact ih _ _ (by omega)

/-! ### The traversal -/

@[simp] theorem traverse_nil (ns : List Node) (f : Nat) (c : Table CodeEntry) : traverse ns f [] c = c := by
  cases f <;> rfl

theorem traverse_leaf {ns : List Node} {k : NodeIdx} (h : (nodeAt ns k).leaf = true) (f : Nat) (p : List Bool)
    (st : List (NodeIdx × List Bool)) (c : Table CodeEntry) :
    traverse ns (f + 1) ((k, p) :: st) c = traverse ns f st (tableSet c (nodeAt ns k).sym (codeOf p)) := by
  simp [traverse, h]

theorem traverse_inner {ns : List Node} {k : NodeIdx} (h : (nodeAt ns k).leaf = false) (f : Nat) (p : List Bool)
    (st : List (NodeIdx × List Bool)) (c : Table CodeEntry) :
    traverse ns (f + 1) ((k, p) :: st) c =
      traverse ns f (((nodeAt ns k).left, p ++ [false]) :: ((nodeAt ns k).right, p ++ [true]) :: st) c := by
  simp [traverse, h]

end Sys2Proof.Machine
end

