-- ==== Sys2Proof/Machine/Assembler.lean ====
section
/-! DEFINITION. The command script of 30_encoding.md R87 and R88: one command a line, the mnemonic, then the
operand of a format B command; `;` starts a comment; `.word` gives a raw word; the four pseudo-instructions.

Host-side notation only: `exec` and `step` use none of it. Log entry 9 lists what R87 leaves open. -/

namespace Sys2Proof.Machine

/-- A token of a script line. -/
inductive ScriptTok where
  | word (cs : List Char)
  | chr (b : Byte)
  | str (bs : List Byte)
deriving DecidableEq, Repr

/-- Where the scanner of a line stands. -/
inductive ScanMode where
  | gap
  | inWord (rev : List Char)
  | inStr (rev : List Byte)
  | quoted (seen : Option Byte)
deriving DecidableEq, Repr

def quoteMark : Char := Char.ofNat 0x27
def doubleQuote : Char := Char.ofNat 0x22

/-- The byte of a quoted character: its ASCII code (00_scope.md R8). -/
def charByte (c : Char) : Option Byte := if c.toNat < 128 then some (BitVec.ofNat 8 c.toNat) else none

/-- The tokens of a line, up to its end or its comment. -/
def scanLine : ScanMode → List Char → Option (List ScriptTok)
  | .gap, [] => some []
  | .gap, c :: cs =>
    if c = ';' then some []
    else if c.isWhitespace then scanLine .gap cs
    else if c = quoteMark then scanLine (.quoted none) cs
    else if c = doubleQuote then scanLine (.inStr []) cs
    else scanLine (.inWord [c]) cs
  | .inWord r, [] => some [.word r.reverse]
  | .inWord r, c :: cs =>
    if c = ';' then some [.word r.reverse]
    else if c.isWhitespace then (scanLine .gap cs).map (.word r.reverse :: ·)
    else if c = quoteMark ∨ c = doubleQuote then none
    else scanLine (.inWord (c :: r)) cs
  | .inStr _, [] => none
  | .inStr r, c :: cs =>
    if c = doubleQuote then (scanLine .gap cs).map (.str r.reverse :: ·)
    else
      match charByte c with
      | none => none
      | some b => scanLine (.inStr (b :: r)) cs
  | .quoted _, [] => none
  | .quoted none, c :: cs =>
    match charByte c with
    | none => none
    | some b => scanLine (.quoted (some b)) cs
  | .quoted (some b), c :: cs => if c = quoteMark then (scanLine .gap cs).map (.chr b :: ·) else none

/-- The value of a digit, hexadecimal digits in either case. -/
def digitValue (c : Char) : Option Nat :=
  if '0' ≤ c ∧ c ≤ '9' then some (c.toNat - 0x30)
  else if 'A' ≤ c ∧ c ≤ 'F' then some (c.toNat - 0x37)
  else if 'a' ≤ c ∧ c ≤ 'f' then some (c.toNat - 0x57)
  else none

/-- The value of a string of digits in a base, after the digits already read. -/
def digitsValue (base : Nat) : Nat → List Char → Option Nat
  | v, [] => some v
  | v, c :: cs =>
    match digitValue c with
    | none => none
    | some d => if d < base then digitsValue base (v * base + d) cs else none

/-- A number: `0x` and hexadecimal digits, or decimal digits (R87). -/
def numberValue : List Char → Option Nat
  | '0' :: 'x' :: c :: cs => digitsValue 16 0 (c :: cs)
  | c :: cs => digitsValue 10 0 (c :: cs)
  | [] => none

/-- The operand byte of a format B command: a number below 256 or a quoted character (R87). -/
def operandValue : ScriptTok → Option Byte
  | .chr b => some b
  | .word cs =>
    match numberValue cs with
    | some v => if v < 256 then some (BitVec.ofNat 8 v) else none
    | none => none
  | .str _ => none

/-- A command of format Z by its mnemonic (R74). -/
def formatZNamed : String → Option Instr
  | "NOP" => some .nop
  | "BLD_BEGIN" => some .bldBegin
  | "BLD_END" => some .bldEnd
  | "ENC_BEGIN" => some .encBegin
  | "ENC_END" => some .encEnd
  | "DEC_BEGIN" => some .decBegin
  | "DEC_END" => some .decEnd
  | _ => none

/-- A command of format B by its mnemonic (R74). -/
def formatBNamed : String → Option (Byte → Instr)
  | "BLD_SYM" => some .bldSym
  | "ENC_SYM" => some .encSym
  | "DEC_BIT" => some .decBit
  | "RD_CODE" => some .rdCode
  | "RD_REG" => some .rdReg
  | _ => none

/-- A pseudo-instruction with a string by its name (R88). -/
def callNamed : String → Option (List Byte → Call)
  | "BUILD" => some .build
  | "ENCODE" => some .encode
  | "DECODE" => some .decode
  | _ => none

/-- The words of one line's tokens; `none` where the line is no command. -/
def assembleTokens : List ScriptTok → Option (List Word)
  | [] => some []
  | [.word m] =>
    if String.ofList m = "SNAPSHOT" then some ((expandCall .snapshot).map encode)
    else (formatZNamed (String.ofList m)).map fun i => [encode i]
  | [.word m, .str bs] => (callNamed (String.ofList m)).map fun f => (expandCall (f bs)).map encode
  | [.word m, t] =>
    if String.ofList m = ".word" then
      match t with
      | .word cs =>
        match numberValue cs with
        | some v => if v < 65536 then some [BitVec.ofNat 16 v] else none
        | none => none
      | _ => none
    else
      match formatBNamed (String.ofList m), operandValue t with
      | some f, some b => some [encode (f b)]
      | _, _ => none
  | _ => none

/-- The words of one script line (R87). -/
def assembleLine (line : List Char) : Option (List Word) :=
  match scanLine .gap line with
  | none => none
  | some ts => assembleTokens ts

/-- The lines of a text, cut at line feeds. -/
def splitLines : List Char → List Char → List (List Char)
  | r, [] => [r.reverse]
  | r, c :: cs => if c = '\n' then r.reverse :: splitLines [] cs else splitLines (c :: r) cs

/-- The words of a list of lines; `none` if any of them is no command. -/
def assembleLines : List (List Char) → Option (List Word)
  | [] => some []
  | l :: ls =>
    match assembleLine l, assembleLines ls with
    | some a, some b => some (a ++ b)
    | _, _ => none

/-- The command words of a script (R87, R88). -/
def assemble (script : String) : Option (List Word) := assembleLines (splitLines [] script.toList)

end Sys2Proof.Machine
end

