-- ==== Sys2Proof/Tests/Slice0.lean ====
section
/-! SUPPORT. The model's own tests: words decoded from the spec's encodings, ill-formed words refused, one step per
command against 95_test_vectors.md, and a witness for the hypotheses of every statement that has any.

Expected values come from the spec: the vector (V<n>), worked example (S<n>) or rule (R<n>) stands at each test. -/

namespace Sys2Proof.Tests

open Sys2Proof Sys2Proof.Machine

/-! ### Small states -/

/-- A build frame, open, in which these symbols have these counts. -/
def counted (w : LenW) (l : List (Byte × Nat)) : State :=
  { State.resetWith w with
    mode := .build
    freq := l.foldl (fun t p => tableSet t p.1 p.2) (Vector.replicate 256 0)
    wlen := (l.map Prod.snd).sum }

/-- The state after one step on a command word. -/
def after (w : Word) (s : State) : State :=
  match step { s with host := [.cmd w] } with
  | .next t => t
  | .fault _ => s
  | .refused _ => s

/-- The idle state in which this tree and this code table are published, the counters cleared. -/
def treeState (n : NodeIdx) (ns : List Node) (root : NodeIdx) (len : Nat) (codes : List (Byte × List Bool)) : State :=
  { State.reset with
    nsym := n, node := ns, root := root, cur := root, textLen := len
    code := codes.foldl (fun t p => tableSet t p.1 (codeOf p.2)) noCodes }

/-- The published state of "aaaa" (S2, V10). -/
def sAaaa : State := treeState 1 [⟨true, 0x61, 4, 0, 0⟩] 0 4 [(0x61, [false])]

/-- The published state of "ab" (S4). -/
def sTwo : State :=
  treeState 2 [⟨true, 0x61, 1, 0, 0⟩, ⟨true, 0x62, 1, 0, 0⟩, ⟨false, 0, 2, 0, 1⟩] 2 2
    [(0x61, [false]), (0x62, [true])]

/-- The published state of "abc" (V16). -/
def sAbc : State :=
  treeState 3 [⟨true, 0x61, 1, 0, 0⟩, ⟨true, 0x62, 1, 0, 0⟩, ⟨true, 0x63, 1, 0, 0⟩, ⟨false, 0, 2, 0, 1⟩,
      ⟨false, 0, 3, 2, 3⟩] 4 3
    [(0x61, [true, false]), (0x62, [true, true]), (0x63, [false])]

/-- The published state of "abacabad" (V14). -/
def sMixed : State :=
  treeState 4 [⟨true, 0x61, 4, 0, 0⟩, ⟨true, 0x62, 2, 0, 0⟩, ⟨true, 0x63, 1, 0, 0⟩, ⟨true, 0x64, 1, 0, 0⟩,
      ⟨false, 0, 2, 2, 3⟩, ⟨false, 0, 4, 1, 4⟩, ⟨false, 0, 8, 0, 5⟩] 6 8
    [(0x61, [false]), (0x62, [true, false]), (0x63, [true, true, false]), (0x64, [true, true, true])]

/-- A state with its mode replaced. -/
def inModeOf (m : Mode) (s : State) : State := { s with mode := m }

/-! ### Encodings, written out from 30_encoding.md R71, R74 -/

theorem test_decode_nop : decode 0b0000_0000_00000000 = .ok .nop := by decide
theorem test_decode_bldBegin : decode 0b0001_0000_00000000 = .ok .bldBegin := by decide
theorem test_decode_bldSym : decode 0b0010_0000_01100001 = .ok (.bldSym 0x61) := by decide
theorem test_decode_bldEnd : decode 0b0011_0000_00000000 = .ok .bldEnd := by decide
theorem test_decode_encBegin : decode 0b0100_0000_00000000 = .ok .encBegin := by decide
theorem test_decode_encSym : decode 0b0101_0000_11111111 = .ok (.encSym 0xFF) := by decide
theorem test_decode_encEnd : decode 0b0110_0000_00000000 = .ok .encEnd := by decide
theorem test_decode_decBegin : decode 0b0111_0000_00000000 = .ok .decBegin := by decide
theorem test_decode_decBit : decode 0b1000_0000_00110000 = .ok (.decBit 0x30) := by decide
theorem test_decode_decEnd : decode 0b1001_0000_00000000 = .ok .decEnd := by decide
theorem test_decode_rdCode : decode 0b1010_0000_10000000 = .ok (.rdCode 0x80) := by decide
theorem test_decode_rdReg : decode 0b1011_0000_00001011 = .ok (.rdReg 0x0B) := by decide
theorem test_encode_words :
    [Instr.nop, .bldBegin, .bldSym 0x61, .bldEnd, .encBegin, .encSym 0x61, .encEnd, .decBegin, .decBit 0x30, .decEnd,
      .rdCode 0x61, .rdReg 0x0B].map encode =
    [0x0000, 0x1000, 0x2061, 0x3000, 0x4000, 0x5061, 0x6000, 0x7000, 0x8030, 0x9000, 0xA061, 0xB00B] := by decide

/-- Illegal words of V1. -/
theorem test_decode_illegal :
    [0x0001, 0x0100, 0x1001, 0x10FF, 0x1F00, 0x2100, 0x3001, 0x4080, 0x7100, 0x9100, 0xA161, 0xB100, 0xC000, 0xD123,
      0xE0FF, 0xF000, 0xFFFF].all (fun w => (decodeTableWord 16 w).isNone) = true := by decide +kernel

/-! ### WellFormed: an ill-formed word for each check (R75) -/

theorem test_smoke_opcode : opcodeAssigned 0xC000 = false ∧ wellFormedWord 0xC000 = false := by decide
theorem test_smoke_reserved : reservedZero 0x2161 = false ∧ wellFormedWord 0x2161 = false := by decide
theorem test_smoke_operand : operandAllowed 0x1001 = false ∧ wellFormedWord 0x1001 = false := by decide
theorem test_wellFormed_accepts : wellFormedWord 0x20FF = true ∧ wellFormedWord 0x9000 = true := by decide

/-! ### One step per command -/

/-- V1: `NOP` from reset changes nothing. -/
theorem test_nop : after 0x0000 State.reset = State.reset := rfl
/-- R101's example; the counts of the last frame are cleared. -/
theorem test_bldBegin : (after 0x1000 { sMixed with freq := (counted .w32 [(0x61, 4)]).freq }).mode = .build ∧
    tableGet (after 0x1000 { sMixed with freq := (counted .w32 [(0x61, 4)]).freq }).freq 0x61 = 0 := by decide
/-- R102's example: the second 'a'. -/
theorem test_bldSym : tableGet (after 0x2061 (counted .w32 [(0x61, 1)])).freq 0x61 = 2 ∧
    (after 0x2061 (counted .w32 [(0x61, 1)])).wlen = 2 := by decide
/-- V31: with `LEN_W` = 8 the 256th symbol is refused and E_CAPACITY recorded. -/
theorem test_bldSym_capacity : (after 0x2062 (counted .w8 [(0x61, 255)])).err = 6 ∧
    tableGet (after 0x2062 (counted .w8 [(0x61, 255)])).freq 0x62 = 0 := by decide
/-- V14, R116: the tree that `BLD_END` publishes for "abacabad". -/
theorem test_bldEnd_tree :
    (after 0x3000 (counted .w32 [(0x61, 4), (0x62, 2), (0x63, 1), (0x64, 1)])).node =
    [⟨true, 0x61, 4, 0, 0⟩, ⟨true, 0x62, 2, 0, 0⟩, ⟨true, 0x63, 1, 0, 0⟩, ⟨true, 0x64, 1, 0, 0⟩,
      ⟨false, 0, 2, 2, 3⟩, ⟨false, 0, 4, 1, 4⟩, ⟨false, 0, 8, 0, 5⟩] := by decide +kernel
/-- V14: its codes, by the derivation. -/
theorem test_bldEnd_codes :
    [0x61, 0x62, 0x63, 0x64, 0x7A].map (fun b => (tableGet (deriveCodes 4 sMixed.node 6) b).bits) =
    [[false], [true, false], [true, true, false], [true, true, true], []] := by decide
/-- R136's example. -/
theorem test_encBegin : (after 0x4000 sAbc).mode = .encode := by decide
/-- R137's example: `ENC_SYM 'b'` after "abacabad". -/
theorem test_encSym : (after 0x5062 (inModeOf .encode sMixed)).rsp = [0x1031, 0x1030] := by decide
/-- V41: against the empty tree it is E_EMPTY, not E_NOSYM. -/
theorem test_encSym_empty : (after 0x5061 (inModeOf .encode State.reset)).err = 1 := by decide
/-- V44: the status of a frame with an absent symbol. -/
theorem test_encEnd : (after 0x6000 { inModeOf .encode sAaaa with err := 2 }).rsp = [0x3002] := by decide
/-- R151's example: after "abc" the cursor starts at 4. -/
theorem test_decBegin : (after 0x7000 sAbc).cur = 4 ∧ (after 0x7000 sAbc).mode = .decode := by decide
/-- R152's example: the second bit of "10" emits 'a'. -/
theorem test_decBit : (after 0x8030 { inModeOf .decode sAbc with cur := 3 }).rsp = [0x2061] ∧
    (after 0x8030 { inModeOf .decode sAbc with cur := 3 }).cur = 4 := by decide
/-- V54: bit '1' under the single-leaf tree. -/
theorem test_decBit_noCode : (after 0x8031 (inModeOf .decode sAaaa)).err = 5 := by decide
/-- V59: the input ends inside a code. -/
theorem test_decEnd_trunc : (after 0x9000 { inModeOf .decode sAbc with cur := 3 }).rsp = [0x3004] ∧
    (after 0x9000 { inModeOf .decode sAbc with cur := 3 }).cur = 4 := by decide
/-- V60: an earlier error takes precedence over truncation. -/
theorem test_decEnd_badBit : (after 0x9000 { inModeOf .decode sAbc with cur := 3, err := 3 }).rsp = [0x3003] := by
  decide
/-- V33: `RD_CODE 'c'` after "abacabad". -/
theorem test_rdCode : (after 0xA063 sMixed).rsp = [0x5003, 0x1031, 0x1031, 0x1030] := by decide
/-- V33: an absent symbol. -/
theorem test_rdCode_absent : (after 0xA07A sMixed).rsp = [0x5000] := by decide
/-- R171's examples, and V71's 1C. -/
theorem test_rdReg_status : (after 0xB000 sMixed).rsp = [0x6014] ∧ (after 0xB000 sAaaa).rsp = [0x601C] := by
  decide +kernel
/-- V70, V72: an unassigned number, and the second byte of a text length of 258. -/
theorem test_rdReg : (after 0xB00C State.reset).rsp = [0x4003] ∧
    (after 0xB009 { State.reset with textLen := 258 }).rsp = [0x6001] := by decide
/-- V73: F_ILLEGAL wins over F_SEQ. -/
theorem test_illegal_first : (after 0x1001 (inModeOf .encode sAbc)).rsp = [0x4001] := by decide
/-- V73: a command out of place is rejected. -/
theorem test_out_of_place : (after 0x1000 (inModeOf .encode sAbc)).rsp = [0x4002] := by decide
/-- V76: reset while a decode frame is open. -/
theorem test_reset_act : step { inModeOf .decode sAbc with host := [.rst] } = .next State.reset := rfl

/-! ### The script notation (R87) -/

/-- R87's example, and R87's raw word. -/
theorem test_assemble_line : assembleLine "ENC_SYM 'a' ; the symbol a".toList = some [0x5061] ∧
    assembleLine ".word 0xC000".toList = some [0xC000] := by decide +kernel
/-- S4's `BUILD "ab"`. -/
theorem test_assemble_build : assembleTokens [.word "BUILD".toList, .str [0x61, 0x62]] =
    some [0x1000, 0x2061, 0x2062, 0x3000] := by decide +kernel

/-! ### Witnesses: states and operands that meet the hypotheses of the statements

Each theorem names its statement; a conjunct stands for each clause with hypotheses of its own, at a boundary value
where the clause has a range. -/

/-- The tree's invariant as one decidable proposition. -/
abbrev TreeParts (n : Nat) (ns : List Node) (root : NodeIdx) : Prop :=
  n ≤ 256 ∧ ns.length = nnode n ∧ root.toNat = 2 * n - 2 ∧
  (∀ k (h : k < ns.length), ns[k].leaf = true ↔ k < n) ∧
  (∀ k (h : k < ns.length), ns[k].leaf = true → 1 ≤ ns[k].freq ∧ ns[k].left = 0 ∧ ns[k].right = 0) ∧
  (∀ k (h : k < ns.length), ns[k].leaf = false →
    ns[k].sym = 0 ∧ ns[k].left ≠ ns[k].right ∧ ns[k].left.toNat < k ∧ ns[k].right.toNat < k ∧
      ns[k].freq = (nodeAt ns ns[k].left).freq + (nodeAt ns ns[k].right).freq) ∧
  (∀ k (_ : k < ns.length), ns.countP (fun nd => hasChild nd k) = if k = root.toNat then 0 else 1) ∧
  ∀ j (hj : j < ns.length) i (hi : i < j), j < n → ns[i].sym < ns[j].sym

/-- The merge engine's invariant as a decidable proposition. -/
abbrev MergedParts (n : Nat) (ns : List Node) : Prop :=
  ∀ k (h : k < ns.length), n ≤ k →
    ns[k].left.toNat ∈ liveBefore ns k ∧ ns[k].right.toNat ∈ liveBefore ns k ∧
      keyBefore ns ns[k].left.toNat ns[k].right.toNat ∧
      ∀ x ∈ liveBefore ns k, x ≠ ns[k].left.toNat → x ≠ ns[k].right.toNat → keyBefore ns ns[k].right.toNat x

/-- The code table's invariant for the symbols that are present, as a decidable proposition. -/
abbrev PresentParts (n : Nat) (ns : List Node) (root : NodeIdx) (c : Table CodeEntry) : Prop :=
  (2 ≤ n → ∀ k (h : k < ns.length), k < n →
    followPath ns root (tableGet c ns[k].sym).bits = some (BitVec.ofNat 9 k) ∧
      (tableGet c ns[k].sym).len.toNat = (tableGet c ns[k].sym).bits.length) ∧
  (n = 1 → ∀ k (h : k < ns.length), tableGet c ns[k].sym = ⟨1, [false]⟩)

theorem tableGet_foldl_other {b : Byte} (codes : List (Byte × List Bool)) (h : ∀ p ∈ codes, p.1 ≠ b) (t : Table CodeEntry) :
    tableGet (codes.foldl (fun t p => tableSet t p.1 (codeOf p.2)) t) b = tableGet t b := by
  induction codes generalizing t with
  | nil => rfl
  | cons p ps ih =>
    rw [List.foldl_cons, ih fun q hq => h q (List.mem_cons_of_mem _ hq),
      tableGet_tableSet_other _ _ (h p (List.mem_cons_self ..)).symm]

theorem counts_of_reset (w : LenW) : CountsOk (State.resetWith w) := ⟨by cases w <;> decide +kernel, Nat.zero_le _⟩

theorem sound_treeState {n : NodeIdx} {ns : List Node} {root : NodeIdx} {len : Nat}
    {codes : List (Byte × List Bool)} (ht : TreeParts n.toNat ns root) (hm : MergedParts n.toNat ns)
    (hl : len = (if n = 0 then 0 else (nodeAt ns root).freq) ∧ len ≤ LenW.w32.lenMax)
    (hp : PresentParts n.toNat ns root (treeState n ns root len codes).code)
    (hc : ∀ p ∈ codes, ∃ k, ∃ hk : k < ns.length, k < n.toNat ∧ ns[k].sym = p.1) :
    Sound (treeState n ns root len codes) := by
  obtain ⟨t1, t2, t3, t4, t5, t6, t7, t8⟩ := ht
  refine ⟨⟨(counts_of_reset .w32).sum, Nat.zero_le _⟩, List.mem_cons_self .., ⟨t1, t2, t3, t4, t5, t6, t7, t8⟩, hm, hl.1, hl.2,
    ⟨hp.1, hp.2, fun b hb => ?_⟩, ⟨fun _ => rfl, fun _ => rfl, fun h => absurd h Mode.noConfusion⟩⟩
  refine (tableGet_foldl_other codes (fun p hp e => ?_) _).trans (tableGet_noCodes b)
  obtain ⟨k, hk, hn, hs⟩ := hc p hp
  exact hb k hk hn (hs.trans e)

/-- Soundness carries over to a state that differs only in the fields no tree depends on. -/
theorem sound_of_same_tree {s : State} (h : Sound s) (m : Mode) (e : BitVec 4) (c : NodeIdx) (l : List HostAct)
    (he : e ∈ errAllowed m s.nsym.toNat) (hc : CursorOk { s with mode := m, err := e, cur := c, host := l }) :
    Sound { s with mode := m, err := e, cur := c, host := l } :=
  ⟨⟨h.counts.sum, h.counts.bound⟩, he, h.tree, h.merged, h.length, h.width, h.table, hc⟩

/-- The machine with a list of acts still to come. -/
def withActs (l : List HostAct) (s : State) : State := { s with host := l }

/-- The result of a run of commands, reset where the run does not answer a next state. -/
def runAll (is : List Instr) (s : State) : State :=
  match execAll is s with
  | .next t => t
  | .fault _ => State.reset
  | .refused _ => State.reset

theorem sound_reset (w : LenW) : Sound (State.resetWith w) := by
  refine ⟨counts_of_reset w, List.mem_cons_self .., ⟨Nat.zero_le _, rfl, rfl, ?_, ?_, ?_, ?_, ?_⟩, ?_, rfl,
    Nat.zero_le _, ⟨fun h => absurd h (by simp [State.resetWith]), fun h => absurd h (by simp [State.resetWith]),
      fun s _ => tableGet_noCodes s⟩, ⟨fun _ => rfl, fun _ => rfl, fun h => absurd h Mode.noConfusion⟩⟩ <;>
    intro k h <;> cases h
theorem sound_single : Sound sAaaa :=
  sound_treeState (by decide) (by decide) (by decide) (by decide +kernel) (by decide)
theorem sound_two : Sound sTwo :=
  sound_treeState (by decide) (by decide) (by decide) (by decide +kernel) (by decide)
theorem sound_abc : Sound sAbc :=
  sound_treeState (by decide) (by decide) (by decide) (by decide +kernel) (by decide)
theorem sound_mixed : Sound sMixed :=
  sound_treeState (by decide) (by decide) (by decide) (by decide +kernel) (by decide)

/-- A build frame of eight-bit counts, full, E_CAPACITY recorded. -/
def sFull : State := { counted .w8 [(0x61, 255)] with err := 6 }

theorem sound_build_full : Sound sFull :=
  have h := sound_reset .w8
  ⟨⟨by decide +kernel, by decide⟩, by decide, h.tree, h.merged, h.length, h.width, h.table, ⟨fun _ => rfl,
    fun _ => rfl, fun h => absurd h (by decide)⟩⟩

/-- An encode frame against the empty tree, E_EMPTY recorded. -/
def sEncEmpty : State := { State.reset with mode := .encode, err := 1, cur := 0, host := [] }

/-- An encode frame, E_NOSYM recorded. -/
def sEncNoSym : State := { sAbc with mode := .encode, err := 2, cur := 4, host := [] }

/-- A decode frame whose cursor is at an internal node below the root. -/
def sDecInner : State := { sAbc with mode := .decode, err := 0, cur := 3, host := [] }

/-- A decode frame under a single leaf, E_NOCODE recorded. -/
def sDecNoCode : State := { sAaaa with mode := .decode, err := 5, cur := 0, host := [] }

theorem sound_decode_noCode : Sound sDecNoCode :=
  sound_of_same_tree sound_single _ _ _ _ (by decide)
    ⟨fun h => absurd rfl h, fun _ => rfl, fun _ h => absurd h (by decide)⟩
theorem sound_encode_empty : Sound sEncEmpty :=
  sound_of_same_tree (sound_reset .w32) _ _ _ _ (by decide)
    ⟨fun _ => rfl, fun _ => rfl, fun h => absurd h (by decide)⟩
theorem sound_encode_noSym : Sound sEncNoSym :=
  sound_of_same_tree sound_abc _ _ _ _ (by decide) ⟨fun _ => rfl, fun _ => rfl, fun h => absurd h (by decide)⟩
theorem sound_decode_inner : Sound sDecInner :=
  sound_of_same_tree sound_abc _ _ _ _ (by decide)
    ⟨fun h => absurd rfl h, fun h => absurd h (by decide), fun _ _ => by decide⟩

theorem witness_DecodeEncodeAgree : decode 0x20FF = .ok (.bldSym 0xFF) := by decide
theorem witness_IllegalWordsRejected :
    (withActs [.cmd 0xC000, .take] State.reset).host = .cmd 0xC000 :: [.take] ∧
    (∃ e, decode 0xC000 = .error e) ∧ (∃ e, decode 0x0100 = .error e) ∧ ∃ e, decode 0x9001 = .error e :=
  ⟨rfl, ⟨_, rfl⟩, ⟨_, rfl⟩, ⟨_, rfl⟩⟩
theorem witness_StepExecutesDecodedCommand :
    (withActs [.cmd 0x2061, .rst] State.reset).host = .cmd 0x2061 :: [.rst] ∧ decode 0x2061 = .ok (.bldSym 0x61) := by
  decide
theorem witness_HostActs :
    State.reset.host = [] ∧
    ((withActs [.take] (after 0xB000 State.reset)).host = .take :: [] ∧
      (withActs [.take] (after 0xB000 State.reset)).rsp = 0x6010 :: []) ∧
    ((withActs [.take] State.reset).host = .take :: [] ∧ (withActs [.take] State.reset).rsp = []) ∧
    (withActs [.rst, .take] State.reset).host = .rst :: [.take] := by decide
theorem witness_ResetSetsEveryElement : (withActs [.rst, .cmd 0x1000] sAbc).host = .rst :: [.cmd 0x1000] := rfl
theorem witness_FrameGrammarEnforced :
    (legalIn .decEnd .decode = true ∧ rejected .decEnd (inModeOf .decode sAbc) = false) ∧
    legalIn .decEnd State.reset.mode = false := by decide
theorem witness_BldBeginOpensAndClears :
    State.reset.mode = .idle ∧ (inModeOf .build State.reset).mode ≠ .idle := by decide
theorem witness_BldSymCountsOneSymbol :
    State.reset.mode ≠ .build ∧
    sFull.err ≠ 0 ∧
    ((counted .w8 [(0x61, 255)]).mode = .build ∧ (counted .w8 [(0x61, 255)]).err = 0 ∧
      (counted .w8 [(0x61, 255)]).wlen = 2 ^ (counted .w8 [(0x61, 255)]).lenW.bits - 1) ∧
    ((counted .w8 [(0x61, 254)]).mode = .build ∧ (counted .w8 [(0x61, 254)]).err = 0 ∧
      (counted .w8 [(0x61, 254)]).wlen ≠ 2 ^ (counted .w8 [(0x61, 254)]).lenW.bits - 1 ∧
      CountsOk (counted .w8 [(0x61, 254)])) :=
  ⟨by decide, by decide, by decide, by decide, by decide, by decide, by decide +kernel, by decide⟩
theorem witness_BldEndPublishesInOneStep :
    State.reset.mode ≠ .build ∧ (sFull.mode = .build ∧ sFull.err ≠ 0) ∧
    (counted .w32 []).mode = .build ∧ (counted .w32 []).err = 0 := by decide
theorem witness_FailedBuildPublishesNothing :
    Sound sFull ∧
    sFull.mode = .build ∧
    sFull.err ≠ 0 := ⟨sound_build_full, rfl, by decide⟩
theorem witness_EncBeginOpensFrame : State.reset.mode = .idle ∧ (inModeOf .encode sAbc).mode ≠ .idle := by decide
theorem witness_EncSymEmitsCode :
    State.reset.mode ≠ .encode ∧
    sEncNoSym.err ≠ 0 ∧
    ((inModeOf .encode State.reset).err = 0 ∧ (inModeOf .encode State.reset).nsym = 0) ∧
    ((inModeOf .encode sAaaa).mode = .encode ∧ (inModeOf .encode sAaaa).err = 0 ∧ (inModeOf .encode sAaaa).nsym ≠ 0 ∧
      (tableGet sAaaa.code 0x62).len = 0 ∧ (tableGet sAaaa.code 0x61).len ≠ 0) := by decide +kernel
theorem witness_EncEndReportsStatus :
    State.reset.mode ≠ .encode ∧ sEncNoSym.mode = .encode ∧
    Sound sEncNoSym ∧ Sound sEncEmpty :=
  ⟨by decide, rfl, sound_encode_noSym, sound_encode_empty⟩
theorem witness_DecBeginOpensAtRoot : sAbc.mode = .idle ∧ (inModeOf .decode sAbc).mode ≠ .idle := by decide +kernel
theorem witness_DecBitWalksTree :
    sAbc.mode ≠ .decode ∧
    ({ inModeOf .decode sAaaa with err := 5 } : State).err ≠ 0 ∧
    ((inModeOf .decode State.reset).err = 0 ∧ (inModeOf .decode State.reset).nsym = 0) ∧
    ((inModeOf .decode sAaaa).err = 0 ∧ sAaaa.nsym = 1 ∧ (0x2F : Byte) ≠ 0x30 ∧ (0x2F : Byte) ≠ 0x31 ∧
      (0x32 : Byte) ≠ 0x30 ∧ (0x32 : Byte) ≠ 0x31) ∧
    ((inModeOf .decode sTwo).mode = .decode ∧ (inModeOf .decode sTwo).err = 0 ∧ 2 ≤ sTwo.nsym.toNat ∧
      (nodeAt sTwo.node (nodeAt sTwo.node sTwo.cur).left).leaf = true) ∧
    ((inModeOf .decode sAbc).mode = .decode ∧ (inModeOf .decode sAbc).err = 0 ∧ 2 ≤ sAbc.nsym.toNat ∧
      (nodeAt sAbc.node (nodeAt sAbc.node sAbc.cur).right).leaf = false) := by decide +kernel
theorem witness_DecEndChecksTruncation :
    sAbc.mode ≠ .decode ∧
    (sDecInner.err = 0 ∧ (3 : NodeIdx) ≠ sAbc.root) ∧
    ((inModeOf .decode sAbc).mode = .decode ∧ (inModeOf .decode sAbc).cur = sAbc.root) ∧
    Sound sDecInner ∧ (Sound sDecNoCode ∧ sDecNoCode.mode = .decode ∧ sDecNoCode.nsym.toNat ≤ 1) :=
  ⟨by decide +kernel, by decide +kernel, by decide +kernel, sound_decode_inner,
    sound_decode_noCode, rfl, by decide⟩
theorem witness_RdCodeReadsOneEntry : sAbc.mode = .idle ∧ (inModeOf .encode sAbc).mode ≠ .idle := by decide +kernel
theorem witness_RdRegReadsRegisterMap :
    (registerValue sAbc 0 = some 0x14 ∧ registerValue sAbc 6 = some 0 ∧ registerValue sAbc 8 = some 3 ∧
      registerValue sAbc 11 = some 0) ∧
    (registerValue sAbc 7 = none ∧ registerValue sAbc 12 = none ∧ registerValue sAbc 255 = none) ∧
    registerValue (State.resetWith .w8) 9 = none ∧ registerValue (State.resetWith .w64) 15 = some 0 ∧
    registerValue (State.resetWith .w64) 16 = none := by decide +kernel
theorem witness_RootIndexAndTreeSize :
    1 = (enumerateLeaves (counted .w32 [(0x61, 4)]).freq).length ∧
    256 = (enumerateLeaves (Vector.replicate 256 1)).length :=
  ⟨by decide +kernel, by simp [enumerateLeaves, allSymbols]⟩
theorem witness_MergeBuildsHuffmanTree :
    (counted .w8 [(0x61, 254), (0x62, 1)]).freq.toList.sum ≤ LenW.w8.lenMax ∧
    enumerateLeaves (counted .w8 [(0x61, 254), (0x62, 1)]).freq ≠ [] := by decide +kernel
theorem witness_EmptyBuildPublishesEmptyTree :
    (counted .w32 []).mode = .build ∧ (counted .w32 []).err = 0 ∧
    (∀ b, tableGet (counted .w32 []).freq b = 0) ∧ (counted .w32 []).wlen = 0 :=
  ⟨rfl, rfl, fun b => tableGet_replicate b 0, rfl⟩
theorem witness_SingleSymbolBuildGivesCodeZero :
    (counted .w32 [(0x61, 1)]).mode = .build ∧ (counted .w32 [(0x61, 1)]).err = 0 ∧
    1 ≤ tableGet (counted .w32 [(0x61, 1)]).freq 0x61 ∧
    ∀ c, c ≠ 0x61 → tableGet (counted .w32 [(0x61, 1)]).freq c = 0 :=
  ⟨rfl, rfl, by decide +kernel, fun c h => (tableGet_tableSet_other _ _ h).trans (tableGet_replicate c 0)⟩
theorem witness_DerivedCodesAreRootPaths :
    TreeOk 0 State.reset.node State.reset.root ∧ TreeOk sMixed.nsym.toNat sMixed.node sMixed.root :=
  ⟨(sound_reset .w32).tree, sound_mixed.tree⟩
theorem witness_CodeLengthBounded :
    (Sound sAaaa ∧ (tableGet sAaaa.code 0x61).len ≠ 0) ∧ Sound sMixed ∧ (tableGet sMixed.code 0x64).len ≠ 0 :=
  ⟨⟨sound_single, by decide +kernel⟩, sound_mixed, by decide +kernel⟩
theorem witness_CodesArePrefixFree :
    Sound sTwo ∧ (0x61 : Byte) ≠ 0x62 ∧ (tableGet sTwo.code 0x61).len ≠ 0 ∧ (tableGet sTwo.code 0x62).len ≠ 0 :=
  ⟨sound_two, by decide, by decide +kernel, by decide +kernel⟩
theorem witness_CodeLengthsMonotone :
    Sound sMixed ∧ ∃ (hi : 3 < sMixed.node.length) (hj : 0 < sMixed.node.length),
      3 < sMixed.nsym.toNat ∧ 0 < sMixed.nsym.toNat ∧ sMixed.node[3].freq < sMixed.node[0].freq :=
  ⟨sound_mixed, by decide +kernel⟩
theorem witness_CompressionBound :
    State.reset.mode = .idle ∧ [0x61, 0x62].length ≤ State.reset.lenW.lenMax ∧
    (∃ t, execAll (expandCall (.build [0x61, 0x62])) State.reset = .next t) ∧
    encodeCall (runAll (expandCall (.build [0x61, 0x62])) State.reset) [0x61, 0x62] = .ok [0x30, 0x31] :=
  ⟨rfl, by decide, ⟨_, rfl⟩, by decide +kernel⟩
theorem witness_StepKeepsInvariant :
    Sound (withActs [.cmd 0x1000] State.reset) ∧ ∃ t, step (withActs [.cmd 0x1000] State.reset) = .next t :=
  ⟨sound_of_same_tree (sound_reset .w32) _ _ _ _ (by decide)
    ⟨fun _ => rfl, fun _ => rfl, fun h => absurd h (by decide)⟩, _, rfl⟩
theorem witness_StepKeepsCounts :
    CountsOk (withActs [.cmd 0x2061] (counted .w8 [(0x61, 254)])) ∧
    ∃ t, step (withActs [.cmd 0x2061] (counted .w8 [(0x61, 254)])) = .next t :=
  ⟨⟨by decide +kernel, by decide⟩, _, rfl⟩
theorem witness_StepKeepsCursor :
    TreeOk State.reset.nsym.toNat State.reset.node State.reset.root ∧ CursorOk State.reset ∧
    (TreeOk sAbc.nsym.toNat sAbc.node sAbc.root ∧ CursorOk sDecInner) ∧
    ∃ t, step (withActs [.cmd 0x7000] State.reset) = .next t :=
  ⟨(sound_reset .w32).tree, (sound_reset .w32).cursor, ⟨sound_decode_inner.tree, sound_decode_inner.cursor⟩, _, rfl⟩
theorem witness_StepKeepsErrorCodes :
    State.reset.err ∈ errAllowed State.reset.mode State.reset.nsym.toNat ∧
    (5 : BitVec 4) ∈ errAllowed .decode 1 ∧ ∃ t, step (withActs [.cmd 0x7000] State.reset) = .next t :=
  ⟨by decide, by decide, _, rfl⟩
theorem witness_ResponsesStayWellFormed :
    State.reset.err ∈ errAllowed State.reset.mode State.reset.nsym.toNat ∧
    (∀ v ∈ ([0x1031, 0x20FF, 0x3006, 0x4003, 0x50FF, 0x60FF] : List Word), responseOk v = true) ∧
    ∃ t, step { withActs [.cmd 0xB000] State.reset with
      rsp := [0x1031, 0x20FF, 0x3006, 0x4003, 0x50FF, 0x60FF] } = .next t :=
  ⟨by decide, List.all_eq_true.1 (by decide), _, rfl⟩
theorem witness_PublishedStateOnlyByBuild :
    (∃ t, exec .encBegin State.reset = .next t) ∧
    ¬ (Instr.encBegin = .bldEnd ∧ State.reset.mode = .build ∧ State.reset.err = 0) := ⟨⟨_, rfl⟩, by decide⟩
theorem witness_FaultRegisterLife :
    (∃ t, step (withActs [.cmd 0xC000] State.reset) = .next t) ∧
    (∃ t, step (withActs [.cmd 0x3000] State.reset) = .next t) ∧
    (∃ t, step (withActs [.cmd 0xB007] State.reset) = .next t) ∧
    ∃ t, step (withActs [.rst] State.reset) = .next t := ⟨⟨_, rfl⟩, ⟨_, rfl⟩, ⟨_, rfl⟩, _, rfl⟩
theorem witness_ErrRegisterLife :
    (isBegin .encBegin = true ∧ legalIn .encBegin State.reset.mode = true) ∧
    ((isBegin .encBegin = false ∨ legalIn .encBegin Mode.build = false) ∧
      ({ counted .w8 [] with err := 6 } : State).err ≠ 0) ∧
    (isBegin .encEnd = false ∧ isDataCommand .encEnd = false ∧ Instr.encEnd ≠ .decEnd) ∧
    ∃ t, exec .encBegin State.reset = .next t := ⟨by decide, by decide, by decide, _, rfl⟩
theorem witness_PendingErrorIgnoresData :
    isDataCommand (.decBit 0x30) = true ∧ legalIn (.decBit 0x30) (inModeOf .decode sAaaa).mode = true ∧
    ({ inModeOf .decode sAaaa with err := 5 } : State).err ≠ 0 := by decide
theorem witness_EncoderFrame :
    (∃ t, exec .encBegin State.reset = .next t) ∧ legalIn .encBegin State.reset.mode = true ∧
    legalIn .encEnd State.reset.mode = false := ⟨⟨_, rfl⟩, by decide, by decide⟩
theorem witness_DecoderFrame :
    (∃ t, exec .decEnd (inModeOf .decode State.reset) = .next t) ∧
    legalIn .decEnd (inModeOf .decode State.reset).mode = true ∧ legalIn .decEnd State.reset.mode = false :=
  ⟨⟨_, rfl⟩, by decide, by decide⟩
theorem witness_BuilderFrame :
    (legalIn .bldBegin State.reset.mode = true ∧ ∃ t, exec .bldBegin State.reset = .next t) ∧
    (legalIn (.bldSym 0x61) (counted .w8 []).mode = true ∧ ∃ t, exec (.bldSym 0x61) (counted .w8 []) = .next t) ∧
    ∃ t, exec .bldEnd (counted .w8 []) = .next t := ⟨⟨rfl, _, rfl⟩, ⟨rfl, _, rfl⟩, _, rfl⟩
theorem witness_ReadsHaveNoSideEffect : rejected (.rdReg 8) State.reset = false := by decide
theorem witness_HiddenTablesUnobservable :
    (∃ t, exec (.rdCode 0x61) { State.reset with freq := (counted .w32 [(0x61, 4)]).freq, wlen := 4 } = .next t) ∧
    ∃ t, exec (.encSym 0x61) { State.reset with node := sAbc.node } = .next t := ⟨⟨_, rfl⟩, _, rfl⟩
theorem witness_BuildCallCountsText :
    State.reset.mode = .idle ∧ (List.replicate 255 (0x61 : Byte)).length ≤ (State.resetWith .w8).lenW.lenMax ∧
    (State.resetWith .w8).lenW.lenMax < (List.replicate 256 (0x61 : Byte)).length := by decide +kernel
theorem witness_BuildIgnoresTextOrder :
    State.reset.mode = .idle ∧ ([0x61, 0x62] : List Byte).Perm [0x62, 0x61] ∧
    ([0x61, 0x62] : List Byte).length ≤ State.reset.lenW.lenMax := by decide
theorem witness_EncodeCallComputesR140 :
    sAbc.mode = .idle ∧ encodeCall sAbc [0x61, 0x63] = .ok [0x31, 0x30, 0x30] ∧
    encodeCall State.reset [0x61] = .error .empty ∧ encodeCall sAbc [0x61, 0x7A] = .error .noSym := by decide +kernel
theorem witness_DecodeCallComputesR157 :
    sAbc.mode = .idle ∧ decodeCall sAbc [0x31, 0x30, 0x30] = .ok [0x61, 0x63] ∧
    decodeCall sAbc [0x31] = .error .trunc := by decide +kernel
theorem witness_SnapshotReturnsCodeTable : sAbc.mode = .idle := by decide +kernel
theorem witness_RoundTripLaw :
    (State.resetWith .w8).mode = .idle ∧
    (List.replicate 255 (0x61 : Byte)).length ≤ (State.resetWith .w8).lenW.lenMax := by decide +kernel
theorem witness_DecodeInvertsEncode : Sound sMixed ∧ encodeCall sMixed [0x62] = .ok [0x31, 0x30] :=
  ⟨sound_mixed, by decide +kernel⟩
theorem witness_DecodeErrorsByTree :
    (decodeCall State.reset [0x30] = .error .empty ∧ State.reset.nsym = 0) ∧
    (decodeCall sAaaa [0x31] = .error .noCode ∧ decodeCall sAaaa [0x32] = .error .badBit ∧ sAaaa.nsym = 1) ∧
    (decodeCall sAbc [0x31] = .error .trunc ∧ 2 ≤ sAbc.nsym.toNat) ∧
    (Sound sTwo ∧ sTwo.nsym = 2 ∧ decodeCall sTwo [0x32] = .error .badBit) :=
  ⟨by decide +kernel, by decide +kernel, by decide +kernel, sound_two, by decide +kernel⟩
theorem witness_OneSymbolTextEncodesToZeros :
    (State.resetWith .w8).mode = .idle ∧ 1 ≤ 255 ∧ 255 ≤ (State.resetWith .w8).lenW.lenMax := by decide
theorem witness_EmptyBuildFrameNearlyResets : sAbc.mode = .idle := by decide +kernel

end Sys2Proof.Tests
end

/-! SUPPORT. A step on a command word, and the proofs of the statements of 00_scope.md. -/

namespace Sys2Proof

/-- A command word is already 16 bits wide, so cutting it to its low 16 bits gives it back. -/
@[simp] theorem tableWord_toNat (w : Word) : tableWord 16 w.toNat = w := by
  simp [tableWord, Nat.mod_eq_of_lt w.isLt]

end Sys2Proof

namespace Sys2Proof.Machine

/-- The command case of the step (00_scope.md R6, 30_encoding.md R77): a legal word at the head of the host's list. -/
theorem step_of_host_cmd {s : State} {w : Word} {rest : List HostAct} {i : Instr}
    (hhost : s.host = .cmd w :: rest) (hdec : decode w = .ok i) :
    step s = exec i { s with host := rest } := by
  simp only [step, hhost, hdec]

theorem withFetchWord_toNat (s : State) (w : Word) : s.withFetchWord 16 w.toNat = offerWord w s := by
  simp [State.withFetchWord]

/-- Offering a word and taking the step consumes exactly that word: `exec` runs on the state as it stood before. -/
theorem step_offerWord {s : State} {w : Word} {i : Instr} (hdec : decode w = .ok i) :
    step (offerWord w s) = exec i s :=
  step_of_host_cmd (offerWord_host w s) hdec

/-- Settles O4: the first clause is the command case of the step, the second the same case after `withFetchWord`
has offered the word. -/
theorem stepExecutesDecodedCommand : Obligations.StepExecutesDecodedCommand := by
  unfold Obligations.StepExecutesDecodedCommand
  refine ⟨fun s w rest i hhost hdec => step_of_host_cmd hhost hdec, fun s w i hdec => ?_⟩
  rw [withFetchWord_toNat]
  exact step_offerWord hdec

end Sys2Proof.Machine

/-! SUPPORT. What an executed command does, split into its cases, and the frame of every command. -/

namespace Sys2Proof.Machine

/-! ### Executed and rejected commands -/

/-- The next state of a command that is executed, by command. -/
def effect : Instr → State → State
  | .nop, s => s
  | .bldBegin, s => { openFrame .build s with freq := Vector.replicate 256 0, wlen := 0 }
  | .bldSym c, s => unlessError (countSymbol c) s
  | .bldEnd, s => closeFrame (unlessError buildAndPublish s)
  | .encBegin, s => openFrame .encode s
  | .encSym c, s => unlessError (encodeSymbol c) s
  | .encEnd, s => closeFrame s
  | .decBegin, s => { openFrame .decode s with cur := s.root }
  | .decBit c, s => unlessError (decodeChar c) s
  | .decEnd, s => { closeFrame (checkTruncation s) with cur := s.root }
  | .rdCode c, s => emitCode (tableGet s.code c) s
  | .rdReg r, s => emit .reg ((regRead r s).getD 0) s

/-- `exec` takes a fault on a rejected command and has the command's effect on every other. -/
theorem exec_eq_effect (i : Instr) (s : State) :
    exec i s = .next (if rejected i s then raiseFault (if legalIn i s.mode then .reg else .seq) s
      else effect i s) := by
  rw [exec_eq]
  cases i <;> rfl

theorem legalIn_of_not_rejected {i : Instr} {s : State} (h : rejected i s = false) : legalIn i s.mode = true := by
  simp only [rejected, Bool.or_eq_false_iff, Bool.not_eq_false'] at h
  exact h.1

theorem exec_cases {i : Instr} {s t : State} (h : exec i s = .next t) :
    (rejected i s = true ∧ t = raiseFault (if legalIn i s.mode then .reg else .seq) s) ∨
    (rejected i s = false ∧ legalIn i s.mode = true ∧ t = effect i s) := by
  rw [exec_eq_effect, Host.Outcome.next.injEq] at h
  cases hr : rejected i s with
  | true => exact .inl ⟨rfl, by simp [← h, hr]⟩
  | false => exact .inr ⟨rfl, legalIn_of_not_rejected hr, by simp [← h, hr]⟩

/-- A command that is legal in its mode and is no register read has its effect. -/
theorem exec_of_legal {i : Instr} {s t : State} (hl : legalIn i s.mode = true) (hi : ∀ r, i ≠ .rdReg r)
    (h : exec i s = .next t) : t = effect i s := by
  have hr : rejected i s = false := by
    cases i with
    | rdReg r => exact absurd rfl (hi r)
    | _ => simp [rejected, hl]
  obtain ⟨hr', -⟩ | ⟨-, -, ht⟩ := exec_cases h
  · simp [hr] at hr'
  · exact ht

/-! ### The frames of the commands -/

/-- What holds of the body's result and of the unchanged state holds of a data command's result. -/
theorem unlessError_induction {P : State → Prop} {body : State → State} {s : State}
    (pending : s.err ≠ 0 → P s) (run : s.err = 0 → P (body s)) : P (unlessError body s) := by
  rw [unlessError_eq]
  split
  · exact run ‹_›
  · exact pending ‹_›

theorem countSymbol_frame (c : Byte) (s : State) :
    ∃ e f w, countSymbol c s = { s with err := e, freq := f, wlen := w } := by
  unfold countSymbol
  split
  · exact ⟨_, s.freq, s.wlen, rfl⟩
  · exact ⟨s.err, _, _, rfl⟩

theorem encodeSymbol_frame (c : Byte) (s : State) :
    ∃ e ws, encodeSymbol c s = { s with err := e, rsp := s.rsp ++ ws } := by
  have error : ∀ a, ∃ e ws, frameError a s = { s with err := e, rsp := s.rsp ++ ws } :=
    fun a => ⟨statusCode a, [], by simp [frameError]⟩
  unfold encodeSymbol
  split
  · exact error .empty
  · split
    · exact error .noSym
    · exact ⟨s.err, _, rfl⟩

theorem decodeChar_frame (c : Byte) (s : State) :
    ∃ e k ws, decodeChar c s = { s with err := e, cur := k, rsp := s.rsp ++ ws } := by
  have error : ∀ a, ∃ e k ws, frameError a s = { s with err := e, cur := k, rsp := s.rsp ++ ws } :=
    fun a => ⟨statusCode a, s.cur, [], by simp [frameError]⟩
  unfold decodeChar
  split
  · exact error .empty
  split
  · exact error .badBit
  next b _ =>
    split
    · unfold decodeSingle
      split
      · exact error .noCode
      · exact ⟨s.err, s.cur, _, rfl⟩
    · simp only [decodeWalk]
      split
      · exact ⟨s.err, _, _, rfl⟩
      · exact ⟨s.err, child (nodeAt s.node s.cur) b, [], by simp⟩

theorem checkTruncation_frame (s : State) : ∃ e, checkTruncation s = { s with err := e } := by
  unfold checkTruncation
  split
  · exact ⟨_, rfl⟩
  · exact ⟨s.err, rfl⟩

/-- `t` differs from `s` in no more than `MODE`, `ERR`, the counters and `CUR`, and extends its response stream. -/
def FramedFrom (s t : State) : Prop :=
  ∃ m e f w k ws, t = { s with mode := m, err := e, freq := f, wlen := w, cur := k, rsp := s.rsp ++ ws }

/-- A command other than a successful `BLD_END` writes no more than `MODE`, `ERR`, the counters and `CUR`, and only
extends the response stream. -/
theorem effect_frame {i : Instr} {s : State} (h : ¬ (i = .bldEnd ∧ s.err = 0)) :
    FramedFrom s (effect i s) := by
  have same : FramedFrom s s :=
    ⟨s.mode, s.err, s.freq, s.wlen, s.cur, [], by simp⟩
  cases i with
  | nop => exact same
  | bldBegin => exact ⟨.build, 0, Vector.replicate 256 0, 0, s.cur, [], by simp [effect, openFrame]⟩
  | bldSym c =>
    refine unlessError_induction (P := FramedFrom s) (fun _ => same) fun _ => ?_
    obtain ⟨e, f, w, hc⟩ := countSymbol_frame c s
    exact ⟨s.mode, e, f, w, s.cur, [], by simp [hc]⟩
  | bldEnd =>
    have herr : s.err ≠ 0 := fun he => h ⟨rfl, he⟩
    exact ⟨.idle, s.err, s.freq, s.wlen, s.cur, _, by simp only [effect, unlessError_eq, if_neg herr]; rfl⟩
  | encBegin => exact ⟨.encode, 0, s.freq, s.wlen, s.cur, [], by simp [effect, openFrame]⟩
  | encSym c =>
    refine unlessError_induction (P := FramedFrom s) (fun _ => same) fun _ => ?_
    obtain ⟨e, ws, hc⟩ := encodeSymbol_frame c s
    exact ⟨s.mode, e, s.freq, s.wlen, s.cur, ws, hc⟩
  | encEnd => exact ⟨.idle, s.err, s.freq, s.wlen, s.cur, _, rfl⟩
  | decBegin => exact ⟨.decode, 0, s.freq, s.wlen, s.root, [], by simp [effect, openFrame]⟩
  | decBit c =>
    refine unlessError_induction (P := FramedFrom s) (fun _ => same) fun _ => ?_
    obtain ⟨e, k, ws, hc⟩ := decodeChar_frame c s
    exact ⟨s.mode, e, s.freq, s.wlen, k, ws, hc⟩
  | decEnd =>
    obtain ⟨e, hc⟩ := checkTruncation_frame s
    exact ⟨.idle, e, s.freq, s.wlen, s.root, _, by simp only [effect, hc]; rfl⟩
  | rdCode c =>
    exact ⟨s.mode, s.err, s.freq, s.wlen, s.cur, _, by
      simp only [effect, emitCode, emitAll, emit, List.append_assoc]; rfl⟩
  | rdReg r => exact ⟨s.mode, s.err, s.freq, s.wlen, s.cur, _, rfl⟩

/-- A successful `BLD_END`: publication and the closing of the frame. -/
theorem effect_bldEnd_of_ok {s : State} (h : s.err = 0) : effect .bldEnd s = closeFrame (buildAndPublish s) := by
  simp [effect, unlessError_eq, h]

theorem effect_bldEnd_of_error {s : State} (h : s.err ≠ 0) : effect .bldEnd s = closeFrame s := by
  simp only [effect, unlessError_eq, if_neg h]

theorem effect_fault (i : Instr) (s : State) : (effect i s).fault = s.fault := by
  by_cases h : i = .bldEnd ∧ s.err = 0
  · obtain ⟨rfl, he⟩ := h
    rw [effect_bldEnd_of_ok he]
    rfl
  · obtain ⟨_, _, _, _, _, _, heff⟩ := effect_frame h
    rw [heff]

theorem effect_lenW (i : Instr) (s : State) : (effect i s).lenW = s.lenW := by
  by_cases h : i = .bldEnd ∧ s.err = 0
  · obtain ⟨rfl, he⟩ := h
    rw [effect_bldEnd_of_ok he]
    rfl
  · obtain ⟨_, _, _, _, _, _, heff⟩ := effect_frame h
    rw [heff]

/-- Settles O38: a rejected command writes `FAULT` only, and the frame of an executed one leaves out the published
state. -/
theorem publishedStateOnlyByBuild : Obligations.PublishedStateOnlyByBuild := by
  unfold Obligations.PublishedStateOnlyByBuild
  intro i s t hexec hno
  obtain ⟨-, rfl⟩ | ⟨-, hl, rfl⟩ := exec_cases hexec
  · exact ⟨rfl, rfl, rfl, rfl, rfl⟩
  · have hframe : ¬ (i = .bldEnd ∧ s.err = 0) := by
      rintro ⟨rfl, he⟩
      exact hno ⟨rfl, by simpa [legalIn] using hl, he⟩
    obtain ⟨_, _, _, _, _, _, heff⟩ := effect_frame hframe
    rw [heff]
    exact ⟨rfl, rfl, rfl, rfl, rfl⟩

theorem exec_fault {i : Instr} {s t : State} (h : exec i s = .next t) :
    t.fault = if legalIn i s.mode = false then 2 else if rejected i s then 3 else s.fault := by
  obtain ⟨hr, rfl⟩ | ⟨hr, hl, rfl⟩ := exec_cases h
  · cases hl : legalIn i s.mode <;> simp [hr, faultCode]
  · simp [hr, hl, effect_fault]

/-- Settles O39, by the five cases of a step. -/
theorem faultRegisterLife : Obligations.FaultRegisterLife := by
  unfold Obligations.FaultRegisterLife
  intro s t h
  obtain ⟨hh, rfl⟩ | ⟨rest, hh, rfl⟩ | ⟨rest, hh, rfl⟩ | ⟨w, rest, i, hh, hd, he⟩ | ⟨w, rest, e, hh, hd, rfl⟩ :=
    step_cases h
  · simp only [hh]
  · simp only [hh]; rfl
  · simp only [hh]; rfl
  · simp only [hh, hd]; exact exec_fault (s := { s with host := rest }) he
  · simp only [hh, hd]; rfl

/-- A pending error outlives every executed command but BEGIN. -/
theorem effect_err_of_pending {i : Instr} {s : State} (hb : isBegin i = false) (he : s.err ≠ 0) :
    (effect i s).err = s.err := by
  cases i with
  | bldBegin => cases hb
  | encBegin => cases hb
  | decBegin => cases hb
  | bldSym c => simp only [effect, unlessError_eq, if_neg he]
  | encSym c => simp only [effect, unlessError_eq, if_neg he]
  | decBit c => simp only [effect, unlessError_eq, if_neg he]
  | bldEnd => rw [effect_bldEnd_of_error he]; rfl
  | decEnd => simp only [effect, checkTruncation, he, false_and, if_false]; rfl
  | _ => rfl

theorem effect_err_of_no_detection {i : Instr} {s : State} (hb : isBegin i = false) (hd : isDataCommand i = false)
    (he : i ≠ .decEnd) : (effect i s).err = s.err := by
  by_cases hs : s.err = 0
  · cases i with
    | bldBegin => cases hb
    | encBegin => cases hb
    | decBegin => cases hb
    | bldSym c => cases hd
    | encSym c => cases hd
    | decBit c => cases hd
    | decEnd => exact absurd rfl he
    | bldEnd => rw [effect_bldEnd_of_ok hs]; rfl
    | _ => rfl
  · exact effect_err_of_pending hb hs

theorem not_rejected_of_begin {i : Instr} {s : State} (hb : isBegin i = true) (hl : legalIn i s.mode = true) :
    rejected i s = false := by
  cases i <;> simp_all [isBegin, rejected]

/-- Settles O40: `ERR` after a rejected command, after a BEGIN, with an error pending, and otherwise. -/
theorem errRegisterLife : Obligations.ErrRegisterLife := by
  unfold Obligations.ErrRegisterLife
  intro i s t hexec
  obtain ⟨hr, rfl⟩ | ⟨-, hl, rfl⟩ := exec_cases hexec
  · refine ⟨fun hb hl => ?_, fun _ _ => rfl, fun _ _ _ => rfl⟩
    simp [not_rejected_of_begin hb hl] at hr
  · refine ⟨fun hb _ => ?_, fun hb he => ?_, effect_err_of_no_detection⟩
    · cases i with
      | bldBegin => rfl
      | encBegin => rfl
      | decBegin => rfl
      | _ => cases hb
    · exact effect_err_of_pending (hb.resolve_right (by simp [hl])) he

theorem tableGet_countSymbol_other {b c : Byte} (s : State) (h : c ≠ b) :
    tableGet (countSymbol b s).freq c = tableGet s.freq c := by
  unfold countSymbol
  split
  · rfl
  · exact tableGet_tableSet_other _ _ h

/-- Settles O44, from the frames of the counter and of publication. -/
theorem builderFrame : Obligations.BuilderFrame := by
  unfold Obligations.BuilderFrame
  refine ⟨fun i s t hi hl hexec => ?_, fun b s t hl hexec c hc => ?_, fun s t hm hexec => ?_⟩
  · obtain rfl | ⟨c, rfl⟩ := hi
    · rw [exec_of_legal hl (by simp) hexec]; rfl
    · rw [exec_of_legal hl (by simp) hexec]
      have hframe : ∃ e f w, effect (.bldSym c) s = { s with err := e, freq := f, wlen := w } :=
        unlessError_induction (P := fun u => ∃ e f w, u = { s with err := e, freq := f, wlen := w })
          (fun _ => ⟨s.err, s.freq, s.wlen, rfl⟩) fun _ => countSymbol_frame c s
      obtain ⟨e, f, w, heff⟩ := hframe
      rw [heff]
  · rw [exec_of_legal hl (by simp) hexec]
    exact unlessError_induction (P := fun u => tableGet u.freq c = tableGet s.freq c) (fun _ => rfl)
      fun _ => tableGet_countSymbol_other s hc
  · rw [exec_of_legal (by simp [hm, legalIn]) (by simp) hexec]
    by_cases he : s.err = 0
    · exact ⟨_, by rw [effect_bldEnd_of_ok he]; rfl⟩
    · exact ⟨_, by rw [effect_bldEnd_of_error he]; rfl⟩

/-! ### What a command does not read -/

/-- The counters of the frequency table replaced. -/
def withCounts (f : Table Nat) (w : Nat) (s : State) : State := { s with freq := f, wlen := w }

/-- The node arena replaced. -/
def withNodes (ns : List Node) (s : State) : State := { s with node := ns }

/-- A replacement that a data command's body commutes with, and that leaves `ERR`, commutes with the command. -/
theorem unlessError_of_commutes {body g : State → State} {s : State} (he : (g s).err = s.err)
    (hb : body (g s) = g (body s)) : unlessError body (g s) = g (unlessError body s) := by
  rw [unlessError_eq, unlessError_eq, he, hb, apply_ite g]

theorem effect_withCounts {i : Instr} (hb : i ≠ .bldBegin) (hs : ∀ c, i ≠ .bldSym c) (he : i ≠ .bldEnd)
    (f : Table Nat) (w : Nat) (s : State) : effect i (withCounts f w s) = withCounts f w (effect i s) := by
  cases i with
  | bldBegin => exact absurd rfl hb
  | bldSym c => exact absurd rfl (hs c)
  | bldEnd => exact absurd rfl he
  | encSym c =>
    refine unlessError_of_commutes rfl ?_
    simp only [encodeSymbol, apply_ite (withCounts f w)]
    rfl
  | decBit c =>
    refine unlessError_of_commutes rfl ?_
    cases hc : charBit c <;>
      simp only [decodeChar, hc, decodeSingle, decodeWalk, apply_ite (withCounts f w)] <;> rfl
  | decEnd =>
    have hcheck : checkTruncation (withCounts f w s) = withCounts f w (checkTruncation s) := by
      simp only [checkTruncation, apply_ite (withCounts f w)]
      rfl
    simp only [effect, hcheck]
    rfl
  | _ => rfl

theorem effect_withNodes {i : Instr} (hd : ∀ c, i ≠ .decBit c) (he : i ≠ .bldEnd) (ns : List Node) (s : State) :
    effect i (withNodes ns s) = withNodes ns (effect i s) := by
  cases i with
  | bldEnd => exact absurd rfl he
  | decBit c => exact absurd rfl (hd c)
  | bldSym c =>
    refine unlessError_of_commutes rfl ?_
    simp only [countSymbol, apply_ite (withNodes ns)]
    rfl
  | encSym c =>
    refine unlessError_of_commutes rfl ?_
    simp only [encodeSymbol, apply_ite (withNodes ns)]
    rfl
  | decEnd =>
    have hcheck : checkTruncation (withNodes ns s) = withNodes ns (checkTruncation s) := by
      simp only [checkTruncation, apply_ite (withNodes ns)]
      rfl
    simp only [effect, hcheck]
    rfl
  | _ => rfl

/-- A replacement that the tests for rejection do not see and that commutes with the command's effect commutes with
its execution. -/
theorem exec_of_commutes {i : Instr} {g : State → State} {s : State}
    (hr : rejected i (g s) = rejected i s) (hm : (g s).mode = s.mode)
    (hf : ∀ c, raiseFault c (g s) = g (raiseFault c s)) (he : effect i (g s) = g (effect i s)) {t : State}
    (h : exec i s = .next t) : exec i (g s) = .next (g t) := by
  rw [exec_eq_effect, Host.Outcome.next.injEq] at h ⊢
  rw [hr, hm, hf, he, ← h, apply_ite g]

/-- Settles O47: neither replacement is seen by a command outside the exceptions. -/
theorem hiddenTablesUnobservable : Obligations.HiddenTablesUnobservable := by
  unfold Obligations.HiddenTablesUnobservable
  refine ⟨fun i s t f f' w w' hb hs he h => ?_, fun i s t ns ns' hd he h => ?_⟩
  · exact exec_of_commutes (g := withCounts f' w') (s := withCounts f w s) rfl rfl (fun _ => rfl)
      (effect_withCounts hb hs he ..) h
  · exact exec_of_commutes (g := withNodes ns') (s := withNodes ns s) rfl rfl (fun _ => rfl)
      (effect_withNodes hd he ..) h

end Sys2Proof.Machine

/-! SUPPORT. The parts of the machine's invariant that need no fact about the merge engine: the counts, the error
codes, the cursor. -/

namespace Sys2Proof.Machine

/-- Settles O7: both tables answer their fill value at every symbol, the other elements are fields as written. -/
theorem resetStateValues : Obligations.ResetStateValues := by
  unfold Obligations.ResetStateValues
  intro w
  exact ⟨rfl, rfl, rfl, fun b => tableGet_replicate b 0, rfl, rfl, rfl, rfl, rfl,
    fun b => tableGet_replicate b CodeEntry.absent, rfl⟩

/-! ### Invariants of the step -/

/-- An invariant that does not speak of `FAULT`, the acts to come and the responses. -/
def IgnoresStreams (P : State → Prop) : Prop :=
  ∀ s f h r, P s → P { s with fault := f, host := h, rsp := r }

/-- What holds after reset, does not speak of the streams, and is kept by every executed command is kept by every
step. -/
theorem step_keeps {P : State → Prop} (hstreams : IgnoresStreams P) (hreset : ∀ w, P (State.resetWith w))
    {s t : State} (hs : P s)
    (heffect : ∀ i rest, legalIn i s.mode = true → P (effect i { s with host := rest }))
    (h : step s = .next t) : P t := by
  obtain ⟨-, rfl⟩ | ⟨rest, -, rfl⟩ | ⟨rest, -, rfl⟩ | ⟨w, rest, i, -, -, hexec⟩ | ⟨w, rest, e, -, -, rfl⟩ :=
    step_cases h
  · exact hs
  · exact hstreams s s.fault rest s.rsp.tail hs
  · exact hstreams (State.resetWith s.lenW) 0 rest [] (hreset s.lenW)
  · obtain ⟨-, rfl⟩ | ⟨-, hl, rfl⟩ := exec_cases hexec
    · exact hstreams s _ rest _ hs
    · exact heffect i rest hl
  · exact hstreams s _ rest _ hs

/-! ### The counts (10_state.md R44) -/

theorem sum_tableSet (t : Table Nat) (c : Byte) (v : Nat) :
    (tableSet t c v).toList.sum + tableGet t c = t.toList.sum + v := by
  have hc : c.toNat < t.toList.length := by simpa using c.isLt
  have hsplit : t.toList.sum = (t.toList.take c.toNat).sum + tableGet t c + (t.toList.drop (c.toNat + 1)).sum := by
    rw [← List.sum_take_add_sum_drop t.toList c.toNat, List.drop_eq_getElem_cons hc, List.sum_cons]
    simp [tableGet, Nat.add_assoc]
  rw [tableSet, Vector.toList_set, List.sum_set, if_pos hc, hsplit]
  omega

theorem tableGet_le_sum (t : Table Nat) (c : Byte) : tableGet t c ≤ t.toList.sum :=
  List.single_le_sum (by simp) _ (by simp [tableGet])

theorem countsOk_resetWith (w : LenW) : CountsOk (State.resetWith w) where
  sum := by
    show 0 = (Vector.replicate 256 0).toList.sum
    rw [Vector.toList_replicate, List.sum_replicate, smul_zero]
  bound := Nat.zero_le _

theorem countsOk_countSymbol {s : State} (h : CountsOk s) (c : Byte) : CountsOk (countSymbol c s) := by
  unfold countSymbol
  split
  · exact ⟨h.sum, h.bound⟩
  next hfull =>
    have hlt : s.wlen + 1 ≤ s.lenW.lenMax := by have := h.bound; omega
    have hc : tableGet s.freq c ≤ s.wlen := h.sum ▸ tableGet_le_sum s.freq c
    have hset := sum_tableSet s.freq c (tableGet s.freq c + 1)
    have hsum := h.sum
    constructor
    · show addCount s.lenW s.wlen 1 = (tableSet s.freq c (addCount s.lenW (tableGet s.freq c) 1)).toList.sum
      rw [addCount_of_le hlt, addCount_of_le (by omega)]
      omega
    · show addCount s.lenW s.wlen 1 ≤ s.lenW.lenMax
      rw [addCount_of_le hlt]
      exact hlt

theorem countsOk_effect {i : Instr} {s : State} (h : CountsOk s) : CountsOk (effect i s) := by
  have same : ∀ t : State, t.lenW = s.lenW → t.freq = s.freq → t.wlen = s.wlen → CountsOk t :=
    fun t hw hf hl => ⟨by rw [hl, hf, h.sum], by rw [hl, hw]; exact h.bound⟩
  cases i with
  | bldBegin => exact ⟨(countsOk_resetWith s.lenW).sum, Nat.zero_le _⟩
  | bldSym c => exact unlessError_induction (fun _ => h) fun _ => countsOk_countSymbol h c
  | bldEnd =>
    by_cases he : s.err = 0
    · rw [effect_bldEnd_of_ok he]; exact same _ rfl rfl rfl
    · rw [effect_bldEnd_of_error he]; exact same _ rfl rfl rfl
  | encSym c =>
    refine unlessError_induction (fun _ => h) fun _ => ?_
    obtain ⟨e, ws, hc⟩ := encodeSymbol_frame c s
    rw [hc]; exact same _ rfl rfl rfl
  | decBit c =>
    refine unlessError_induction (fun _ => h) fun _ => ?_
    obtain ⟨e, k, ws, hc⟩ := decodeChar_frame c s
    rw [hc]; exact same _ rfl rfl rfl
  | decEnd =>
    obtain ⟨e, hc⟩ := checkTruncation_frame s
    simp only [effect, hc]; exact same _ rfl rfl rfl
  | _ => exact same _ rfl rfl rfl

/-- Settles O34: only `BLD_BEGIN` and `BLD_SYM` write the counters, and below `LEN_MAX` the addition is exact. -/
theorem stepKeepsCounts : Obligations.StepKeepsCounts := by
  unfold Obligations.StepKeepsCounts
  intro s t hs h
  exact step_keeps (fun s f h r hs => ⟨hs.sum, hs.bound⟩) countsOk_resetWith hs
    (fun i rest _ => countsOk_effect ⟨hs.sum, hs.bound⟩) h

/-! ### The error codes (10_state.md R22) -/

/-- `ERR` holds a code that the open frame and the published tree allow. -/
def ErrOk (s : State) : Prop := s.err ∈ errAllowed s.mode s.nsym.toNat

theorem zero_mem_errAllowed (m : Mode) (n : Nat) : 0 ∈ errAllowed m n := by
  unfold errAllowed
  split <;> exact List.mem_cons_self ..

theorem mem_errAllowed_idle {m : Mode} {n : Nat} {e : BitVec 4} (h : e ∈ errAllowed m n) (n' : Nat) :
    e ∈ errAllowed .idle n' := by
  unfold errAllowed at h ⊢
  split at h <;> simp only [List.mem_cons, List.not_mem_nil, or_false] at h ⊢ <;> tauto

theorem noSym_mem_errAllowed {n : Nat} (h : n ≠ 0) : statusCode .noSym ∈ errAllowed .encode n := by
  cases n with
  | zero => exact absurd rfl h
  | succ n => simp [errAllowed, statusCode]

theorem badBit_mem_errAllowed {n : Nat} (h : n ≠ 0) : statusCode .badBit ∈ errAllowed .decode n := by
  match n with
  | 0 => exact absurd rfl h
  | 1 => simp [errAllowed, statusCode]
  | n + 2 => simp [errAllowed, statusCode]

theorem toNat_ne_zero {k : NodeIdx} (h : k ≠ 0) : k.toNat ≠ 0 :=
  fun hk => h (BitVec.eq_of_toNat_eq hk)

theorem errOk_encodeSymbol {s : State} (hs : ErrOk s) (hm : s.mode = .encode) (c : Byte) :
    ErrOk (encodeSymbol c s) := by
  unfold encodeSymbol
  split
  next hn => simp [ErrOk, hm, hn, errAllowed, statusCode]
  next hn =>
    split
    · have := noSym_mem_errAllowed (toNat_ne_zero hn)
      simpa [ErrOk, hm] using this
    · exact hs

theorem errOk_decodeChar {s : State} (hs : ErrOk s) (hm : s.mode = .decode) (c : Byte) :
    ErrOk (decodeChar c s) := by
  unfold decodeChar
  split
  next hn => simp [ErrOk, hm, hn, errAllowed, statusCode]
  next hn =>
    split
    · have := badBit_mem_errAllowed (toNat_ne_zero hn)
      simpa [ErrOk, hm] using this
    · split
      next h1 =>
        unfold decodeSingle
        split
        · simp [ErrOk, hm, h1, errAllowed, statusCode]
        · exact hs
      next =>
        simp only [decodeWalk]
        split <;> exact hs

theorem errOk_countSymbol {s : State} (hs : ErrOk s) (hm : s.mode = .build) (c : Byte) :
    ErrOk (countSymbol c s) := by
  unfold countSymbol
  split
  · simp [ErrOk, hm, errAllowed, statusCode]
  · exact hs

theorem checkTruncation_err (s : State) : (checkTruncation s).err = s.err ∨ (checkTruncation s).err = 4 := by
  unfold checkTruncation
  split
  · exact .inr rfl
  · exact .inl rfl

theorem errOk_effect {i : Instr} {s : State} (hs : ErrOk s) (hl : legalIn i s.mode = true) :
    ErrOk (effect i s) := by
  cases i with
  | bldBegin => exact zero_mem_errAllowed ..
  | encBegin => exact zero_mem_errAllowed ..
  | decBegin => exact zero_mem_errAllowed ..
  | bldSym c => exact unlessError_induction (fun _ => hs) fun _ => errOk_countSymbol hs (by simpa [legalIn] using hl) c
  | encSym c => exact unlessError_induction (fun _ => hs) fun _ => errOk_encodeSymbol hs (by simpa [legalIn] using hl) c
  | decBit c => exact unlessError_induction (fun _ => hs) fun _ => errOk_decodeChar hs (by simpa [legalIn] using hl) c
  | bldEnd =>
    by_cases he : s.err = 0
    · rw [effect_bldEnd_of_ok he]; exact mem_errAllowed_idle hs _
    · rw [effect_bldEnd_of_error he]; exact mem_errAllowed_idle hs _
  | encEnd => exact mem_errAllowed_idle hs _
  | decEnd =>
    show (checkTruncation s).err ∈ errAllowed .idle _
    obtain h | h := checkTruncation_err s
    · exact h ▸ mem_errAllowed_idle hs _
    · simp [h, errAllowed]
  | _ => exact hs

/-- Settles O36: each data command records a code of its own frame, and after a frame every code is allowed. -/
theorem stepKeepsErrorCodes : Obligations.StepKeepsErrorCodes := by
  unfold Obligations.StepKeepsErrorCodes
  intro s t hs h
  exact step_keeps (P := ErrOk) (fun s f h r hs => hs) (fun w => zero_mem_errAllowed ..) hs
    (fun i rest hl => errOk_effect (s := { s with host := rest }) hs hl) h

/-! ### The cursor (10_state.md R45) -/

theorem TreeOk.leaf_iff {n : Nat} {ns : List Node} {root : NodeIdx} (h : TreeOk n ns root) {k : NodeIdx}
    (hk : k.toNat < ns.length) : (nodeAt ns k).leaf = true ↔ k.toNat < n := by
  rw [nodeAt_of_lt hk]
  exact h.leaves k.toNat hk

theorem TreeOk.root_lt {n : Nat} {ns : List Node} {root : NodeIdx} (h : TreeOk n ns root) (hn : n ≠ 0) :
    root.toNat < ns.length := by
  rw [h.size, h.rootIndex, nnode, if_neg hn]
  omega

/-- Both children of an internal node come before it in the arena (R37). -/
theorem TreeOk.child_lt {n : Nat} {ns : List Node} {root : NodeIdx} (h : TreeOk n ns root) {k : NodeIdx}
    (hk : k.toNat < ns.length) (hinner : (nodeAt ns k).leaf = false) (b : Bool) :
    (child (nodeAt ns k) b).toNat < k.toNat := by
  rw [nodeAt_of_lt hk] at hinner ⊢
  obtain ⟨-, -, hleft, hright, -⟩ := h.innerNode k.toNat hk hinner
  cases b
  · exact hleft
  · exact hright

theorem TreeOk.root_inner {n : Nat} {ns : List Node} {root : NodeIdx} (h : TreeOk n ns root) (hn : 2 ≤ n) :
    (nodeAt ns root).leaf = false := by
  have hroot := h.rootIndex
  rw [← Bool.not_eq_true, h.leaf_iff (h.root_lt (by omega))]
  omega

theorem cursorOk_of_cur_eq_root {s : State} (hc : s.cur = s.root)
    (hroot : s.mode = .decode → TreeOk s.nsym.toNat s.node s.root) : CursorOk s where
  closed _ := hc
  small _ := hc
  inner hm hn := by
    have ht := hroot hm
    have := ht.rootIndex
    rw [hc]
    exact ⟨ht.root_inner hn, by omega, le_rfl⟩

theorem cursorOk_decodeWalk {s : State} (htree : TreeOk s.nsym.toNat s.node s.root) (hs : CursorOk s)
    (hm : s.mode = .decode) (hn : 2 ≤ s.nsym.toNat) (b : Bool) : CursorOk (decodeWalk b s) := by
  simp only [decodeWalk]
  split
  · exact cursorOk_of_cur_eq_root rfl fun _ => htree
  next hleaf =>
    obtain ⟨hinner, -, hle⟩ := hs.inner hm hn
    have hcur : s.cur.toNat < s.node.length := hle.trans_lt (htree.root_lt (by omega))
    have hlt := htree.child_lt hcur hinner b
    rw [htree.leaf_iff (hlt.trans hcur)] at hleaf
    refine ⟨fun h => absurd hm h, fun h => absurd hn (by simpa using h), fun _ _ => ⟨?_, ?_, ?_⟩⟩
    · rw [← Bool.not_eq_true, htree.leaf_iff (hlt.trans hcur)]
      exact hleaf
    · simpa using hleaf
    · exact hlt.le.trans hle

theorem cursorOk_decodeChar {s : State} (htree : TreeOk s.nsym.toNat s.node s.root) (hs : CursorOk s)
    (hm : s.mode = .decode) (c : Byte) : CursorOk (decodeChar c s) := by
  have same : ∀ e r, CursorOk { s with err := e, rsp := r } := fun e r => ⟨hs.closed, hs.small, hs.inner⟩
  unfold decodeChar
  split
  · exact same _ s.rsp
  next h0 =>
    split
    · exact same _ s.rsp
    · split
      · unfold decodeSingle
        split
        · exact same _ s.rsp
        · exact same s.err _
      next h1 =>
        have hne : s.nsym.toNat ≠ 1 := fun h => h1 (BitVec.eq_of_toNat_eq h)
        have := toNat_ne_zero h0
        exact cursorOk_decodeWalk htree hs hm (by omega) _

theorem cursorOk_effect {i : Instr} {s : State} (htree : TreeOk s.nsym.toNat s.node s.root) (hs : CursorOk s)
    (hl : legalIn i s.mode = true) : CursorOk (effect i s) := by
  have same : ∀ e f w r, CursorOk { s with err := e, freq := f, wlen := w, rsp := r } :=
    fun e f w r => ⟨hs.closed, hs.small, hs.inner⟩
  have atRoot (hm : s.mode ≠ .decode) {t : State} (hc : t.cur = s.cur) (hr : t.root = s.root)
      (ht : t.mode ≠ .decode) : CursorOk t :=
    cursorOk_of_cur_eq_root (by rw [hc, hr, hs.closed hm]) fun h => absurd h ht
  cases i with
  | bldBegin => exact atRoot (by simp_all [legalIn]) rfl rfl (by simp [effect])
  | encBegin => exact atRoot (by simp_all [legalIn]) rfl rfl (by simp [effect])
  | decBegin => exact cursorOk_of_cur_eq_root rfl fun _ => htree
  | bldSym c =>
    refine unlessError_induction (fun _ => hs) fun _ => ?_
    obtain ⟨e, f, w, hc⟩ := countSymbol_frame c s
    exact hc ▸ same e f w s.rsp
  | encSym c =>
    refine unlessError_induction (fun _ => hs) fun _ => ?_
    obtain ⟨e, ws, hc⟩ := encodeSymbol_frame c s
    exact hc ▸ same e s.freq s.wlen _
  | decBit c =>
    exact unlessError_induction (fun _ => hs) fun _ => cursorOk_decodeChar htree hs (by simpa [legalIn] using hl) c
  | bldEnd =>
    by_cases he : s.err = 0
    · rw [effect_bldEnd_of_ok he]
      exact cursorOk_of_cur_eq_root rfl fun h => by simp at h
    · rw [effect_bldEnd_of_error he]
      exact atRoot (by simp_all [legalIn]) rfl rfl (by simp)
  | encEnd => exact atRoot (by simp_all [legalIn]) rfl rfl (by simp [effect])
  | decEnd =>
    obtain ⟨e, hc⟩ := checkTruncation_frame s
    simp only [effect, hc]
    exact cursorOk_of_cur_eq_root rfl fun h => by simp at h
  | _ => exact same s.err s.freq s.wlen _

theorem cursorOk_resetWith (w : LenW) : CursorOk (State.resetWith w) :=
  cursorOk_of_cur_eq_root rfl fun h => by simp [State.resetWith] at h

/-- Settles O35: a frame opens and closes with the cursor at the root, and inside a decode frame it moves from an
internal node to one of its children that is internal. -/
theorem stepKeepsCursor : Obligations.StepKeepsCursor := by
  unfold Obligations.StepKeepsCursor
  intro s t htree hs h
  exact step_keeps (fun s f h r hs => ⟨hs.closed, hs.small, hs.inner⟩) cursorOk_resetWith hs
    (fun i rest hl => cursorOk_effect htree ⟨hs.closed, hs.small, hs.inner⟩ hl) h

end Sys2Proof.Machine

/-! SUPPORT. The merge engine's arena (40_tree_builder.md R104 to R108): what every turn of the merge loop keeps, and
what it gives when one node is left. -/

namespace Sys2Proof.Machine

/-! ### The leaves -/

theorem enumerateLeaves_length_le (freq : Table Nat) : (enumerateLeaves freq).length ≤ 256 :=
  (List.length_filterMap_le ..).trans (by simp [allSymbols])

theorem enumerateLeaves_ascending (freq : Table Nat) :
    (enumerateLeaves freq).Pairwise fun a b => a.sym < b.sym := by
  refine allSymbols_ascending.filterMap _ ?_
  intro s s' hlt nd hnd nd' hnd'
  obtain ⟨-, rfl⟩ : _ ∧ leafNode s _ = nd := by simpa using hnd
  obtain ⟨-, rfl⟩ : _ ∧ leafNode s' _ = nd' := by simpa using hnd'
  exact hlt

theorem toList_eq_map_tableGet (t : Table Nat) : t.toList = allSymbols.map (tableGet t) := by
  refine List.ext_getElem (by simp [allSymbols]) fun k h _ => ?_
  have hk : k < 256 := by simpa using h
  simp [allSymbols, tableGet, BitVec.toNat_ofNat, Nat.mod_eq_of_lt hk]

theorem enumerateLeaves_sum (freq : Table Nat) :
    ((enumerateLeaves freq).map Node.freq).sum = freq.toList.sum := by
  rw [toList_eq_map_tableGet, enumerateLeaves]
  induction allSymbols with
  | nil => rfl
  | cons s ss ih =>
    by_cases h : 1 ≤ tableGet freq s
    · simpa [h, leafNode] using ih
    · have h0 : tableGet freq s = 0 := by omega
      simpa [h0] using ih

/-! ### The arena and the collection when a node is added -/

theorem nodeAt_append_left {ns : List Node} {k : NodeIdx} (h : k.toNat < ns.length) (ms : List Node) :
    nodeAt (ns ++ ms) k = nodeAt ns k := by
  rw [nodeAt, nodeAt, List.getElem?_append_left h]

theorem freqAt_append_left {ns : List Node} {x : Nat} (h : x < ns.length) (ms : List Node) :
    freqAt (ns ++ ms) x = freqAt ns x := by
  rw [freqAt, freqAt, List.getElem?_append_left h]

theorem freqAt_of_lt {ns : List Node} {x : Nat} (h : x < ns.length) : freqAt ns x = ns[x].freq := by
  simp [freqAt, List.getElem?_eq_getElem h]

theorem nodeAt_freq {ns : List Node} {k : NodeIdx} (h : k.toNat < ns.length) :
    (nodeAt ns k).freq = freqAt ns k.toNat := by
  rw [nodeAt_of_lt h, freqAt_of_lt h]

theorem hasChild_of_leaf {nd : Node} (h : nd.leaf = true) (x : Nat) : hasChild nd x = false := by
  simp [hasChild, h]

theorem mem_liveBefore {ns : List Node} {k x : Nat} :
    x ∈ liveBefore ns k ↔ x < k ∧ ∀ nd ∈ ns.take k, hasChild nd x = false := by
  simp [liveBefore]

theorem mem_liveBefore_length {ns : List Node} {x : Nat} :
    x ∈ liveBefore ns ns.length ↔ x < ns.length ∧ ∀ nd ∈ ns, hasChild nd x = false := by
  rw [mem_liveBefore, List.take_length]

theorem liveBefore_append {ns : List Node} {k : Nat} (h : k ≤ ns.length) (ms : List Node) :
    liveBefore (ns ++ ms) k = liveBefore ns k := by
  simp only [liveBefore, List.take_append_of_le_length h]

/-- What `TreeOk` asks of the internal node `nd` at index `k`. -/
def InnerOk (ns : List Node) (k : Nat) (nd : Node) : Prop :=
  nd.leaf = false ∧ nd.sym = 0 ∧ nd.left ≠ nd.right ∧ nd.left.toNat < k ∧ nd.right.toNat < k ∧
    nd.freq = (nodeAt ns nd.left).freq + (nodeAt ns nd.right).freq

theorem InnerOk.append {ns : List Node} {k : Nat} {nd : Node} (h : InnerOk ns k nd) (hk : k ≤ ns.length)
    (ms : List Node) : InnerOk (ns ++ ms) k nd := by
  obtain ⟨hleaf, hsym, hne, hleft, hright, hfreq⟩ := h
  refine ⟨hleaf, hsym, hne, hleft, hright, ?_⟩
  rw [nodeAt_append_left (hleft.trans_le hk), nodeAt_append_left (hright.trans_le hk), hfreq]

/-- What `MergedArena` asks of the internal node `nd` at index `k`. -/
def MergedAt (ns : List Node) (k : Nat) (nd : Node) : Prop :=
  nd.left.toNat ∈ liveBefore ns k ∧ nd.right.toNat ∈ liveBefore ns k ∧
    keyBefore ns nd.left.toNat nd.right.toNat ∧
    ∀ x ∈ liveBefore ns k, x ≠ nd.left.toNat → x ≠ nd.right.toNat → keyBefore ns nd.right.toNat x

theorem MergedAt.append {ns : List Node} {k : Nat} {nd : Node} (h : MergedAt ns k nd) (hk : k ≤ ns.length)
    (ms : List Node) : MergedAt (ns ++ ms) k nd := by
  have live {x : Nat} (hx : x ∈ liveBefore ns k) : freqAt (ns ++ ms) x = freqAt ns x :=
    freqAt_append_left ((mem_liveBefore.1 hx).1.trans_le hk) ms
  obtain ⟨hleft, hright, hlr, hleast⟩ := h
  rw [MergedAt, liveBefore_append hk]
  refine ⟨hleft, hright, ?_, fun x hx h1 htwo => ?_⟩
  · simpa only [keyBefore, live hleft, live hright] using hlr
  · simpa only [keyBefore, live hx, live hright] using hleast x hx h1 htwo

theorem keyBefore_of_keyLt {ns : List Node} {a b : Key} (ha : a.1 = freqAt ns a.2) (hb : b.1 = freqAt ns b.2)
    (h : keyLt a b = true) : keyBefore ns a.2 b.2 := by
  rw [keyBefore, ← ha, ← hb]
  exact keyLt_iff.1 h

theorem forall_getElem_snoc {P : Nat → Node → Prop} {ns : List Node} {m : Node} {n : Nat}
    (hold : ∀ k (hk : k < ns.length), n ≤ k → P k ns[k]) (hnew : P ns.length m) :
    ∀ k (hk : k < (ns ++ [m]).length), n ≤ k → P k (ns ++ [m])[k] := by
  intro k hk hle
  rw [List.length_append, List.length_singleton] at hk
  obtain rfl | hk : k = ns.length ∨ k < ns.length := by omega
  · simpa using hnew
  · rw [List.getElem_append_left hk]
    exact hold k hk hle

/-! ### Removing the two least keys -/

/-- `i` and `j` are the two least keys of the collection, in order, and `rest` holds the others. -/
structure LeastTwo (q : List Key) (i j : Key) (rest : List Key) : Prop where
  perm     : q.Perm (i :: j :: rest)
  distinct : ((i :: j :: rest).map Prod.snd).Nodup
  ordered  : keyLt i j = true
  others   : ∀ k ∈ rest, keyLt j k = true

theorem keyLt_of_popMin {q rest : List Key} {m : Key} (hd : (q.map Prod.snd).Nodup)
    (h : popMin q = some (m, rest)) : ∀ k ∈ rest, keyLt m k = true := by
  intro k hk
  have hnd := ((popMin_perm h).map Prod.snd).nodup_iff.1 hd
  obtain rfl | hlt := keyLt_total (popMin_least h k hk)
  · exact absurd (List.mem_map_of_mem hk) (List.nodup_cons.1 hnd).1
  · exact hlt

theorem leastTwo_of_popMin {q q₁ q₂ : List Key} {i j : Key} (hd : (q.map Prod.snd).Nodup)
    (h₁ : popMin q = some (i, q₁)) (h₂ : popMin q₁ = some (j, q₂)) : LeastTwo q i j q₂ := by
  have hp : q.Perm (i :: j :: q₂) := (popMin_perm h₁).trans ((popMin_perm h₂).cons i)
  have hnd := (hp.map Prod.snd).nodup_iff.1 hd
  have hd₁ : (q₁.map Prod.snd).Nodup :=
    (List.nodup_cons.1 (((popMin_perm h₁).map Prod.snd).nodup_iff.1 hd)).2
  exact ⟨hp, hnd, keyLt_of_popMin hd h₁ j ((popMin_perm h₂).symm.subset (List.mem_cons_self ..)),
    keyLt_of_popMin hd₁ h₂⟩

theorem LeastTwo.rest_subset {q rest : List Key} {i j : Key} (h : LeastTwo q i j rest) {k : Key} (hk : k ∈ rest) :
    k ∈ q :=
  h.perm.symm.subset (List.mem_cons_of_mem _ (List.mem_cons_of_mem _ hk))

theorem LeastTwo.index_ne {q rest : List Key} {i j : Key} (h : LeastTwo q i j rest) : i.2 ≠ j.2 := by
  have hd := h.distinct
  simp only [List.map_cons, List.nodup_cons, List.mem_cons, not_or] at hd
  exact hd.1.1

theorem LeastTwo.rest_ne {q rest : List Key} {i j : Key} (h : LeastTwo q i j rest) {k : Key} (hk : k ∈ rest) :
    k.2 ≠ i.2 ∧ k.2 ≠ j.2 := by
  have hd := h.distinct
  simp only [List.map_cons, List.nodup_cons, List.mem_cons, not_or] at hd
  have hmem : k.2 ∈ rest.map Prod.snd := List.mem_map_of_mem hk
  exact ⟨fun he => hd.1.2 (he ▸ hmem), fun he => hd.2.1 (he ▸ hmem)⟩

/-! ### The merge loop's invariant -/

/-- What holds of the arena and the collection at every turn of the merge loop. -/
structure Merging (leaves ns : List Node) (q : List Key) : Prop where
  leavesFirst : leaves <+: ns
  size        : q.length + ns.length = 2 * leaves.length
  pending     : leaves ≠ [] → q ≠ []
  keys        : ∀ k : Key, k ∈ q ↔ k.2 ∈ liveBefore ns ns.length ∧ k.1 = freqAt ns k.2
  distinct    : (q.map Prod.snd).Nodup
  total       : (q.map Prod.fst).sum = (leaves.map Node.freq).sum
  inner       : ∀ k (h : k < ns.length), leaves.length ≤ k → InnerOk ns k ns[k]
  owned       : ∀ x, ns.countP (fun nd => hasChild nd x) ≤ 1
  merged      : MergedArena leaves.length ns

theorem merging_initialKeys {leaves : List Node} (hl : ∀ nd ∈ leaves, nd.leaf = true) :
    Merging leaves leaves (initialKeys leaves) := by
  have hlive (x : Nat) : x ∈ liveBefore leaves leaves.length ↔ x < leaves.length := by
    rw [mem_liveBefore_length, and_iff_left]
    exact fun nd hnd => hasChild_of_leaf (hl nd hnd) x
  constructor
  case leavesFirst => exact ⟨[], List.append_nil _⟩
  case size => simp [initialKeys]; omega
  case pending => intro h hq; exact h (by simpa [initialKeys] using hq)
  case keys =>
    intro k
    rw [hlive, initialKeys, List.mem_mapIdx]
    constructor
    · rintro ⟨x, hx, rfl⟩
      exact ⟨hx, (freqAt_of_lt hx).symm⟩
    · rintro ⟨hk, hf⟩
      exact ⟨k.2, hk, Prod.ext (by rw [hf, freqAt_of_lt hk]) rfl⟩
  case distinct =>
    have : (initialKeys leaves).map Prod.snd = List.range leaves.length :=
      List.ext_getElem (by simp [initialKeys]) fun k _ _ => by simp [initialKeys]
    rw [this]
    exact List.nodup_range
  case total =>
    have : (initialKeys leaves).map Prod.fst = leaves.map Node.freq :=
      List.ext_getElem (by simp [initialKeys]) fun k _ _ => by simp [initialKeys]
    rw [this]
  case inner => intro k h hk; omega
  case owned =>
    intro x
    rw [List.countP_eq_zero.2 fun nd hnd => by simp [hasChild_of_leaf (hl nd hnd)]]
    exact Nat.zero_le _
  case merged => intro k h hk; omega

section Turn

variable {w : LenW} {leaves ns : List Node} {q q₁ q₂ : List Key} {i j : Key}

/-- The bounds of one turn: the two removed keys name two nodes below the new one, and their sum fits. -/
structure TurnFacts (w : LenW) (ns : List Node) (i j : Key) : Prop where
  indexBound : ns.length < 511
  left       : i.2 ∈ liveBefore ns ns.length
  right      : j.2 ∈ liveBefore ns ns.length
  leftFreq   : i.1 = freqAt ns i.2
  rightFreq  : j.1 = freqAt ns j.2
  fits       : i.1 + j.1 ≤ w.lenMax

theorem Merging.turnFacts (h : Merging leaves ns q) (hn : leaves.length ≤ 256)
    (hw : (leaves.map Node.freq).sum ≤ w.lenMax) (htwo : LeastTwo q i j q₂) : TurnFacts w ns i j := by
  have hi := (h.keys i).1 (htwo.perm.symm.subset (by simp))
  have hj := (h.keys j).1 (htwo.perm.symm.subset (by simp))
  have hlen := htwo.perm.length_eq
  have hsize := h.size
  have hsum := (htwo.perm.map Prod.fst).sum_eq
  have htotal := h.total
  simp only [List.length_cons, List.map_cons, List.sum_cons] at hlen hsum
  exact ⟨by omega, hi.1, hj.1, hi.2, hj.2, by omega⟩

theorem TurnFacts.left_toNat (h : TurnFacts w ns i j) : (mergeNode w i j).left.toNat = i.2 := by
  have := (mem_liveBefore.1 h.left).1
  have := h.indexBound
  exact Nat.mod_eq_of_lt (by omega)

theorem TurnFacts.right_toNat (h : TurnFacts w ns i j) : (mergeNode w i j).right.toNat = j.2 := by
  have := (mem_liveBefore.1 h.right).1
  have := h.indexBound
  exact Nat.mod_eq_of_lt (by omega)

theorem TurnFacts.freq_eq (h : TurnFacts w ns i j) : (mergeNode w i j).freq = i.1 + j.1 := addCount_of_le h.fits

theorem TurnFacts.hasChild_iff (h : TurnFacts w ns i j) (x : Nat) :
    hasChild (mergeNode w i j) x = true ↔ i.2 = x ∨ j.2 = x := by
  have hleaf : (mergeNode w i j).leaf = false := rfl
  simp [hasChild, hleaf, h.left_toNat, h.right_toNat]

theorem TurnFacts.innerOk (h : TurnFacts w ns i j) (hij : i.2 ≠ j.2) :
    InnerOk (ns ++ [mergeNode w i j]) ns.length (mergeNode w i j) := by
  have hi := (mem_liveBefore.1 h.left).1
  have hj := (mem_liveBefore.1 h.right).1
  refine InnerOk.append ⟨rfl, rfl, fun he => hij ?_, ?_, ?_, ?_⟩ le_rfl _
  · rw [← h.left_toNat, ← h.right_toNat, he]
  · rwa [h.left_toNat]
  · rwa [h.right_toNat]
  · rw [nodeAt_freq (by rwa [h.left_toNat]), nodeAt_freq (by rwa [h.right_toNat]), h.left_toNat, h.right_toNat,
      h.freq_eq, h.leftFreq, h.rightFreq]

theorem TurnFacts.mergedAt (h : TurnFacts w ns i j) (htwo : LeastTwo q i j q₂)
    (hkeys : ∀ k : Key, k ∈ q ↔ k.2 ∈ liveBefore ns ns.length ∧ k.1 = freqAt ns k.2) :
    MergedAt (ns ++ [mergeNode w i j]) ns.length (mergeNode w i j) := by
  refine MergedAt.append ?_ le_rfl _
  rw [MergedAt, h.left_toNat, h.right_toNat]
  refine ⟨h.left, h.right, keyBefore_of_keyLt h.leftFreq h.rightFreq htwo.ordered, fun x hx hxi hxj => ?_⟩
  have hmem := htwo.perm.subset ((hkeys (freqAt ns x, x)).2 ⟨hx, rfl⟩)
  obtain rfl | rfl | hmem := by simpa only [List.mem_cons] using hmem
  · exact absurd rfl hxi
  · exact absurd rfl hxj
  · exact keyBefore_of_keyLt (b := (freqAt ns x, x)) h.rightFreq rfl (htwo.others _ hmem)

/-- After a turn the two removed nodes are children, and the new node is none yet. -/
theorem TurnFacts.mem_live (h : TurnFacts w ns i j) (hchild : ∀ nd ∈ ns, hasChild nd ns.length = false) (x : Nat) :
    x ∈ liveBefore (ns ++ [mergeNode w i j]) (ns ++ [mergeNode w i j]).length ↔
      x = ns.length ∨ (x ∈ liveBefore ns ns.length ∧ x ≠ i.2 ∧ x ≠ j.2) := by
  have hi := (mem_liveBefore.1 h.left).1
  have hj := (mem_liveBefore.1 h.right).1
  have hm : hasChild (mergeNode w i j) x = false ↔ x ≠ i.2 ∧ x ≠ j.2 := by
    rw [← Bool.not_eq_true, h.hasChild_iff, not_or, eq_comm, eq_comm (a := j.2)]
  rw [mem_liveBefore_length, mem_liveBefore_length]
  simp only [List.length_append, List.length_singleton, List.mem_append, List.mem_singleton, or_imp, forall_and,
    forall_eq, hm]
  constructor
  · rintro ⟨hx, hns, hne⟩
    obtain rfl | hx : x = ns.length ∨ x < ns.length := by omega
    · exact .inl rfl
    · exact .inr ⟨⟨hx, hns⟩, hne⟩
  · rintro (rfl | ⟨⟨hx, hns⟩, hne⟩)
    · exact ⟨by omega, hchild, by omega, by omega⟩
    · exact ⟨by omega, hns, hne⟩

/-- After a turn the collection again holds the keys of the nodes that are no child. -/
theorem TurnFacts.mem_pending_iff (h : TurnFacts w ns i j) (htwo : LeastTwo q i j q₂)
    (hkeys : ∀ k : Key, k ∈ q ↔ k.2 ∈ liveBefore ns ns.length ∧ k.1 = freqAt ns k.2)
    (hchild : ∀ nd ∈ ns, hasChild nd ns.length = false) (k : Key) :
    k ∈ q₂ ++ [((mergeNode w i j).freq, ns.length)] ↔
      k.2 ∈ liveBefore (ns ++ [mergeNode w i j]) (ns ++ [mergeNode w i j]).length ∧
        k.1 = freqAt (ns ++ [mergeNode w i j]) k.2 := by
  have hbelow {x : Nat} (hx : x ∈ liveBefore ns ns.length) :
      freqAt (ns ++ [mergeNode w i j]) x = freqAt ns x := freqAt_append_left (mem_liveBefore.1 hx).1 _
  have hnew : freqAt (ns ++ [mergeNode w i j]) ns.length = (mergeNode w i j).freq := by simp [freqAt]
  rw [h.mem_live hchild, List.mem_append, List.mem_singleton]
  constructor
  · rintro (hk | rfl)
    · obtain ⟨hlive, hfreq⟩ := (hkeys k).1 (htwo.rest_subset hk)
      exact ⟨.inr ⟨hlive, htwo.rest_ne hk⟩, by rw [hbelow hlive, hfreq]⟩
    · exact ⟨.inl rfl, hnew.symm⟩
  · rintro ⟨hx | ⟨hx, hi, hj⟩, hf⟩
    · exact .inr (Prod.ext (by rw [hf, hx, hnew]) hx)
    · rw [hbelow hx] at hf
      have hmem := htwo.perm.subset ((hkeys k).2 ⟨hx, hf⟩)
      obtain rfl | rfl | hmem := by simpa only [List.mem_cons] using hmem
      · exact absurd rfl hi
      · exact absurd rfl hj
      · exact .inl hmem

theorem Merging.hasChild_lt (h : Merging leaves ns q) (hl : ∀ nd ∈ leaves, nd.leaf = true) {k x : Nat}
    (hk : k < ns.length) (hc : hasChild ns[k] x = true) : x < k := by
  by_cases hlt : k < leaves.length
  · rw [← h.leavesFirst.getElem hlt, hasChild_of_leaf (hl _ (List.getElem_mem hlt))] at hc
    cases hc
  · obtain ⟨hleaf, -, -, hleft, hright, -⟩ := h.inner k hk (by omega)
    obtain rfl | rfl : ns[k].left.toNat = x ∨ ns[k].right.toNat = x := by simpa [hasChild, hleaf] using hc
    · exact hleft
    · exact hright

theorem Merging.no_child_above (h : Merging leaves ns q) (hl : ∀ nd ∈ leaves, nd.leaf = true) {x : Nat}
    (hx : ns.length ≤ x + 1) : ∀ nd ∈ ns, hasChild nd x = false := by
  intro nd hnd
  obtain ⟨k, hk, rfl⟩ := List.getElem_of_mem hnd
  rw [← Bool.not_eq_true]
  intro hc
  have := h.hasChild_lt hl hk hc
  omega

/-- One turn of the loop keeps the invariant (R105, R106, R108, R112). -/
theorem Merging.turn (h : Merging leaves ns q) (hl : ∀ nd ∈ leaves, nd.leaf = true) (hn : leaves.length ≤ 256)
    (hw : (leaves.map Node.freq).sum ≤ w.lenMax) (h₁ : popMin q = some (i, q₁)) (h₂ : popMin q₁ = some (j, q₂)) :
    Merging leaves (mergePair w ns q₂ i j).1 (mergePair w ns q₂ i j).2 := by
  have htwo := leastTwo_of_popMin h.distinct h₁ h₂
  have ht := h.turnFacts hn hw htwo
  simp only [mergePair]
  constructor
  case leavesFirst => exact h.leavesFirst.trans ⟨_, rfl⟩
  case size =>
    have hlen := htwo.perm.length_eq
    have hsize := h.size
    simp only [List.length_cons, List.length_append, List.length_nil] at hlen ⊢
    omega
  case pending => simp
  case keys => exact ht.mem_pending_iff htwo h.keys (h.no_child_above hl (by omega))
  case distinct =>
    have hd := htwo.distinct
    simp only [List.map_cons, List.nodup_cons] at hd
    rw [List.map_append, List.nodup_append]
    refine ⟨hd.2.2, by simp, ?_⟩
    intro x hx y hy
    obtain ⟨k, hk, rfl⟩ := List.mem_map.1 hx
    have := (mem_liveBefore.1 ((h.keys k).1 (htwo.rest_subset hk)).1).1
    obtain rfl : y = ns.length := by simpa using hy
    omega
  case total =>
    have hsum := (htwo.perm.map Prod.fst).sum_eq
    have htotal := h.total
    simp only [List.map_cons, List.sum_cons, List.map_append, List.sum_append, List.map_nil, List.sum_nil,
      ht.freq_eq] at hsum ⊢
    omega
  case inner =>
    exact forall_getElem_snoc (P := InnerOk (ns ++ [mergeNode w i j]))
      (fun k hk hle => (h.inner k hk hle).append hk.le _) (ht.innerOk htwo.index_ne)
  case owned =>
    intro x
    rw [List.countP_append, List.countP_singleton]
    split
    next hc =>
      have hx : x ∈ liveBefore ns ns.length := by
        obtain rfl | rfl := (ht.hasChild_iff x).1 hc
        · exact ht.left
        · exact ht.right
      rw [List.countP_eq_zero.2 fun nd hnd => by simp [(mem_liveBefore_length.1 hx).2 nd hnd]]
    next => exact h.owned x
  case merged =>
    exact forall_getElem_snoc (P := MergedAt (ns ++ [mergeNode w i j]))
      (fun k hk hle => MergedAt.append (h.merged k hk hle) hk.le _) (ht.mergedAt htwo h.keys)

end Turn

/-! ### The finished tree -/

section Finished

variable {w : LenW} {leaves ns : List Node} {q : List Key}

/-- The loop ends with the invariant and at most one node in the collection (R105, R115). -/
theorem exists_merging_buildTree (hl : ∀ nd ∈ leaves, nd.leaf = true) (hn : leaves.length ≤ 256)
    (hw : (leaves.map Node.freq).sum ≤ w.lenMax) :
    ∃ q, Merging leaves (buildTree w leaves).1 q ∧ q.length ≤ 1 ∧ (buildTree w leaves).2 = rootOf q :=
  ⟨(mergeLoop w leaves.length leaves (initialKeys leaves)).2,
    mergeLoop_keeps (P := Merging leaves) (fun _ _ _ _ _ _ h h₁ h₂ => h.turn hl hn hw h₁ h₂) _ _ _
      (merging_initialKeys hl),
    mergeLoop_collection_small _ _ _ (by simp [initialKeys]), rfl⟩

theorem Merging.length_eq_nnode (h : Merging leaves ns q) (hq : q.length ≤ 1) :
    ns.length = nnode leaves.length := by
  have hsize := h.size
  unfold nnode
  split
  · omega
  next hne =>
    have := List.length_pos_iff.2 (h.pending fun he => hne (by simp [he]))
    omega

/-- The node left in the collection is the last of the arena (R111). -/
theorem Merging.eq_root (h : Merging leaves ns q) (hl : ∀ nd ∈ leaves, nd.leaf = true) (hq : q.length ≤ 1)
    (hne : leaves ≠ []) : q = [(freqAt ns (ns.length - 1), ns.length - 1)] := by
  have hpos := List.length_pos_iff.2 hne
  have hlen := h.length_eq_nnode hq
  rw [nnode, if_neg (by omega)] at hlen
  have hlast : ns.length - 1 ∈ liveBefore ns ns.length :=
    mem_liveBefore_length.2 ⟨by omega, h.no_child_above hl (by omega)⟩
  have hmem := (h.keys (freqAt ns (ns.length - 1), ns.length - 1)).2 ⟨hlast, rfl⟩
  match q, hq with
  | [k], _ => simpa using (List.mem_singleton.1 hmem).symm

theorem Merging.root_toNat (h : Merging leaves ns q) (hl : ∀ nd ∈ leaves, nd.leaf = true) (hq : q.length ≤ 1)
    (hn : leaves.length ≤ 256) : (rootOf q).toNat = 2 * leaves.length - 2 := by
  have hlen := h.length_eq_nnode hq
  by_cases hne : leaves = []
  · have hsize := h.size
    rw [hne, List.length_nil, mul_zero, Nat.add_eq_zero_iff] at hsize
    simp [List.length_eq_zero_iff.1 hsize.1, hne, rootOf]
  · have hpos := List.length_pos_iff.2 hne
    rw [nnode, if_neg (by omega)] at hlen
    have hmod : (ns.length - 1) % 2 ^ 9 = ns.length - 1 := Nat.mod_eq_of_lt (by omega)
    rw [h.eq_root hl hq hne, rootOf, BitVec.toNat_ofNat, hmod]
    omega

/-- The root's frequency is the sum of the leaves' (R112). -/
theorem Merging.root_freq (h : Merging leaves ns q) (hl : ∀ nd ∈ leaves, nd.leaf = true) (hq : q.length ≤ 1)
    (hn : leaves.length ≤ 256) (hne : leaves ≠ []) :
    (nodeAt ns (rootOf q)).freq = (leaves.map Node.freq).sum := by
  have hpos := List.length_pos_iff.2 hne
  have hroot := h.root_toNat hl hq hn
  have hlen := h.length_eq_nnode hq
  rw [nnode, if_neg (by omega)] at hlen
  have htotal := h.total
  rw [h.eq_root hl hq hne, List.map_singleton, List.sum_singleton] at htotal
  rw [nodeAt_freq (by omega), hroot, ← htotal]
  congr 1
  omega

theorem Merging.owned_eq (h : Merging leaves ns q) (hl : ∀ nd ∈ leaves, nd.leaf = true) (hq : q.length ≤ 1)
    (hn : leaves.length ≤ 256) (k : Nat) (hk : k < ns.length) :
    ns.countP (fun nd => hasChild nd k) = if k = (rootOf q).toNat then 0 else 1 := by
  have hroot := h.root_toNat hl hq hn
  have hlen := h.length_eq_nnode hq
  have hne : leaves ≠ [] := by
    rintro rfl
    rw [hlen] at hk
    exact absurd hk (Nat.not_lt_zero k)
  have hpos := List.length_pos_iff.2 hne
  rw [nnode, if_neg (by omega)] at hlen
  split
  next hkr =>
    exact List.countP_eq_zero.2 fun nd hnd => by simp [h.no_child_above hl (x := k) (by omega) nd hnd]
  next hkr =>
    refine le_antisymm (h.owned k) (Nat.one_le_iff_ne_zero.2 fun hzero => ?_)
    have hlive : k ∈ liveBefore ns ns.length :=
      mem_liveBefore_length.2 ⟨hk, fun nd hnd => by simpa using List.countP_eq_zero.1 hzero nd hnd⟩
    have hmem := (h.keys (freqAt ns k, k)).2 ⟨hlive, rfl⟩
    rw [h.eq_root hl hq hne, List.mem_singleton, Prod.mk.injEq] at hmem
    omega

end Finished

theorem enumerateLeaves_leaf (freq : Table Nat) : ∀ nd ∈ enumerateLeaves freq, nd.leaf = true := by
  intro nd hnd
  obtain ⟨s, -, rfl⟩ := mem_enumerateLeaves.1 hnd
  rfl

/-- The arena that starts with the leaves of a frequency table and went through the merge loop is a strict binary
tree over them (R37, R38). -/
theorem Merging.treeOk {freq : Table Nat} {ns : List Node} {q : List Key}
    (h : Merging (enumerateLeaves freq) ns q) (hq : q.length ≤ 1) :
    TreeOk (enumerateLeaves freq).length ns (rootOf q) := by
  have hl := enumerateLeaves_leaf freq
  have hn := enumerateLeaves_length_le freq
  have hget {k : Nat} (hk : k < (enumerateLeaves freq).length) (hk' : k < ns.length) :
      ns[k] = (enumerateLeaves freq)[k] := (h.leavesFirst.getElem hk).symm
  have hleaf (k : Nat) (hk : k < ns.length) : ns[k].leaf = true ↔ k < (enumerateLeaves freq).length := by
    constructor
    · intro ht
      by_contra hc
      have hi := (h.inner k hk (by omega)).1
      simp [ht] at hi
    · intro hlt
      rw [hget hlt hk]
      exact hl _ (List.getElem_mem hlt)
  constructor
  case alphabet => exact hn
  case size => exact h.length_eq_nnode hq
  case rootIndex => exact h.root_toNat hl hq hn
  case leaves => exact hleaf
  case leafNode =>
    intro k hk ht
    obtain ⟨s, hs, hnd⟩ := mem_enumerateLeaves.1 (List.getElem_mem ((hleaf k hk).1 ht))
    rw [hget ((hleaf k hk).1 ht) hk, hnd]
    exact ⟨hs, rfl, rfl⟩
  case innerNode =>
    intro k hk ht
    have hle : (enumerateLeaves freq).length ≤ k := by
      by_contra hc
      have := (hleaf k hk).2 (by omega)
      simp [ht] at this
    exact (h.inner k hk hle).2
  case owned => exact h.owned_eq hl hq hn
  case ascending =>
    intro j hj i hi hjn
    rw [hget hjn hj, hget (hi.trans hjn) (hi.trans hj)]
    exact List.pairwise_iff_getElem.1 (enumerateLeaves_ascending freq) i j _ hjn hi

/-- Everything the merge engine gives for a frequency table whose sum fits (R104 to R108, R111, R112). -/
theorem buildTree_spec {w : LenW} {freq : Table Nat} (hw : freq.toList.sum ≤ w.lenMax) :
    enumerateLeaves freq <+: (buildTree w (enumerateLeaves freq)).1 ∧
    TreeOk (enumerateLeaves freq).length (buildTree w (enumerateLeaves freq)).1
      (buildTree w (enumerateLeaves freq)).2 ∧
    MergedArena (enumerateLeaves freq).length (buildTree w (enumerateLeaves freq)).1 ∧
    (enumerateLeaves freq ≠ [] →
      (nodeAt (buildTree w (enumerateLeaves freq)).1 (buildTree w (enumerateLeaves freq)).2).freq =
        freq.toList.sum) := by
  have hl := enumerateLeaves_leaf freq
  have hn := enumerateLeaves_length_le freq
  rw [← enumerateLeaves_sum freq] at hw ⊢
  obtain ⟨q, h, hq, hroot⟩ := exists_merging_buildTree hl hn hw
  rw [hroot]
  exact ⟨h.leavesFirst, h.treeOk hq, h.merged, h.root_freq hl hq hn⟩

end Sys2Proof.Machine

/-! SUPPORT. The derivation of the code table (41_code_table.md R120 to R123): the traversal reaches every leaf by its
path from the root, within its bound on the pops. -/

namespace Sys2Proof.Machine

/-! ### Paths -/

theorem followPath_snoc {ns : List Node} {r k : NodeIdx} {p : List Bool} (h : followPath ns r p = some k)
    (hinner : (nodeAt ns k).leaf = false) (b : Bool) :
    followPath ns r (p ++ [b]) = some (child (nodeAt ns k) b) := by
  induction p generalizing r with
  | nil =>
    obtain rfl : r = k := by simpa [followPath] using h
    simp [followPath, hinner]
  | cons c p ih =>
    cases hr : (nodeAt ns r).leaf with
    | true => simp [followPath, hr] at h
    | false =>
      simp only [followPath, hr, List.cons_append, Bool.false_eq_true, if_false] at h ⊢
      exact ih h

section Tree

variable {n : Nat} {ns : List Node} {root : NodeIdx}

theorem TreeOk.inner_iff (h : TreeOk n ns root) {k : NodeIdx} (hk : k.toNat < ns.length) :
    (nodeAt ns k).leaf = false ↔ n ≤ k.toNat := by
  rw [← Bool.not_eq_true, h.leaf_iff hk, not_lt]

/-- A path leaves an internal node at every step, and goes down in the arena, so its length is bounded by the number
of internal nodes up to its start (R125). -/
theorem TreeOk.path_length_le (h : TreeOk n ns root) {k x : NodeIdx} {p : List Bool} (hk : k.toNat < ns.length)
    (hp : followPath ns k p = some x) : p.length ≤ k.toNat + 1 - n := by
  induction p generalizing k with
  | nil => exact Nat.zero_le _
  | cons b p ih =>
    cases hleaf : (nodeAt ns k).leaf with
    | true => simp [followPath, hleaf] at hp
    | false =>
      have hlt := h.child_lt hk hleaf b
      have hle := (h.inner_iff hk).1 hleaf
      simp only [followPath, hleaf, Bool.false_eq_true, if_false] at hp
      have := ih (hlt.trans hk) hp
      rw [List.length_cons]
      omega

theorem TreeOk.sym_injective (h : TreeOk n ns root) {j k : NodeIdx} (hj : j.toNat < n) (hk : k.toNat < n)
    (hj' : j.toNat < ns.length) (hk' : k.toNat < ns.length) (he : (nodeAt ns j).sym = (nodeAt ns k).sym) :
    j = k := by
  rw [nodeAt_of_lt hj', nodeAt_of_lt hk'] at he
  apply BitVec.eq_of_toNat_eq
  rcases lt_trichotomy j.toNat k.toNat with hlt | heq | hlt
  · exact absurd (he ▸ h.ascending _ hk' _ hlt hk) (BitVec.lt_irrefl _)
  · exact heq
  · exact absurd (he ▸ h.ascending _ hj' _ hlt hj) (BitVec.lt_irrefl _)

/-- Node `k` is internal and `x` is one of its children. -/
def IsParent (ns : List Node) (k x : NodeIdx) : Prop :=
  (nodeAt ns k).leaf = false ∧ ((nodeAt ns k).left = x ∨ (nodeAt ns k).right = x)

theorem isParent_iff {k x : NodeIdx} (hk : k.toNat < ns.length) :
    IsParent ns k x ↔ hasChild ns[k.toNat] x.toNat = true := by
  simp [IsParent, hasChild, nodeAt_of_lt hk, BitVec.toNat_inj]

end Tree

theorem two_le_countP {α : Type} {p : α → Bool} {l : List α} {i j : Nat} (hij : i < j) (hj : j < l.length)
    (hpi : p (l[i]'(hij.trans hj)) = true) (hpj : p l[j] = true) : 2 ≤ l.countP p := by
  have hbefore : 0 < (l.take j).countP p := by
    refine List.countP_pos_iff.2 ⟨_, List.mem_take_iff_getElem.2 ⟨i, ?_, rfl⟩, hpi⟩
    omega
  have hfrom : 0 < (l.drop j).countP p := by
    refine List.countP_pos_iff.2 ⟨l[j], ?_, hpj⟩
    rw [List.drop_eq_getElem_cons hj]
    exact List.mem_cons_self ..
  rw [← List.take_append_drop j l, List.countP_append]
  omega

/-- A predicate that at most one entry of a list meets is met at one index only. -/
theorem index_unique_of_countP_le_one {α : Type} {p : α → Bool} {l : List α} (h : l.countP p ≤ 1) {i j : Nat}
    (hi : i < l.length) (hj : j < l.length) (hpi : p l[i] = true) (hpj : p l[j] = true) : i = j := by
  rcases lt_trichotomy i j with hlt | heq | hlt
  · have := two_le_countP hlt hj hpi hpj
    omega
  · exact heq
  · have := two_le_countP hlt hi hpj hpi
    omega

section Tree

variable {n : Nat} {ns : List Node} {root : NodeIdx}

theorem TreeOk.ofNat_toNat (h : TreeOk n ns root) {k : Nat} (hk : k < ns.length) :
    (BitVec.ofNat 9 k).toNat = k := by
  have hn := h.alphabet
  rw [h.size, nnode] at hk
  refine Nat.mod_eq_of_lt ?_
  split at hk <;> omega

theorem TreeOk.parent_unique (h : TreeOk n ns root) {j k x : NodeIdx} (hj : j.toNat < ns.length)
    (hk : k.toNat < ns.length) (hx : x.toNat < ns.length) (hjx : IsParent ns j x) (hkx : IsParent ns k x) :
    j = k := by
  have hcount : ns.countP (fun nd => hasChild nd x.toNat) ≤ 1 := by
    rw [h.owned _ hx]
    split <;> simp
  exact BitVec.eq_of_toNat_eq
    (index_unique_of_countP_le_one hcount hj hk ((isParent_iff hj).1 hjx) ((isParent_iff hk).1 hkx))

theorem TreeOk.root_no_parent (h : TreeOk n ns root) (hn : n ≠ 0) {k : NodeIdx} (hk : k.toNat < ns.length) :
    ¬ IsParent ns k root := by
  intro hp
  have hcount := h.owned root.toNat (h.root_lt hn)
  rw [if_pos rfl, List.countP_eq_zero] at hcount
  exact hcount _ (List.getElem_mem hk) ((isParent_iff hk).1 hp)

theorem TreeOk.exists_parent (h : TreeOk n ns root) {x : NodeIdx} (hx : x.toNat < ns.length) (hne : x ≠ root) :
    ∃ k : NodeIdx, k.toNat < ns.length ∧ x.toNat < k.toNat ∧ IsParent ns k x := by
  have hcount := h.owned x.toNat hx
  rw [if_neg fun he => hne (BitVec.eq_of_toNat_eq he)] at hcount
  obtain ⟨nd, hnd, hc⟩ := List.countP_pos_iff.1 (Nat.lt_of_lt_of_eq Nat.one_pos hcount.symm)
  obtain ⟨k, hk, rfl⟩ := List.getElem_of_mem hnd
  have hidx : (BitVec.ofNat 9 k).toNat = k := h.ofNat_toNat hk
  have hparent : IsParent ns (BitVec.ofNat 9 k) x := (isParent_iff (by omega)).2 (by simpa only [hidx] using hc)
  refine ⟨BitVec.ofNat 9 k, by omega, ?_, hparent⟩
  obtain ⟨hinner, rfl | rfl⟩ := hparent
  · exact h.child_lt (by omega) hinner false
  · exact h.child_lt (by omega) hinner true

end Tree

/-! ### The traversal's invariant -/

/-- The nodes popped so far and the nodes on the stack. -/
def seen (done : List NodeIdx) (st : List (NodeIdx × List Bool)) : List NodeIdx := done ++ st.map Prod.fst

@[simp] theorem mem_seen {done : List NodeIdx} {st : List (NodeIdx × List Bool)} {x : NodeIdx} :
    x ∈ seen done st ↔ x ∈ done ∨ x ∈ st.map Prod.fst := List.mem_append

/-- What holds at every pop of the traversal, `done` being the nodes popped so far: every node is met once and only
through its parent, what is on the stack carries its path, and the leaves popped have theirs in the table. -/
structure Traversing (n : Nat) (ns : List Node) (root : NodeIdx) (done : List NodeIdx)
    (st : List (NodeIdx × List Bool)) (c : Table CodeEntry) : Prop where
  distinct : (seen done st).Nodup
  inArena  : ∀ x ∈ seen done st, x.toNat < ns.length
  rootSeen : root ∈ seen done st
  children : ∀ k ∈ done, ∀ x, IsParent ns k x → x ∈ seen done st
  parents  : ∀ x ∈ seen done st, x = root ∨ ∃ k ∈ done, IsParent ns k x
  paths    : ∀ e ∈ st, followPath ns root e.2 = some e.1
  codes    : ∀ k ∈ done, k.toNat < n →
    ∃ p, followPath ns root p = some k ∧ tableGet c (nodeAt ns k).sym = codeOf p
  absent   : ∀ s : Byte, (∀ k (h : k < ns.length), k < n → ns[k].sym ≠ s) → tableGet c s = CodeEntry.absent

section Traversal

variable {n : Nat} {ns : List Node} {root k : NodeIdx} {done : List NodeIdx} {st : List (NodeIdx × List Bool)}
  {p : List Bool} {c : Table CodeEntry}

theorem traversing_start (h : TreeOk n ns root) (hn : n ≠ 0) :
    Traversing n ns root [] [(root, [])] noCodes where
  distinct := by simp [seen]
  inArena := by simpa using h.root_lt hn
  rootSeen := by simp
  children := by simp
  parents := by simp
  paths := by simp [followPath]
  codes := by simp
  absent s _ := tableGet_noCodes s

/-- Popping moves a node from the stack to the nodes done, and shows no new node. -/
theorem seen_perm_pop : (seen (k :: done) st).Perm (seen done ((k, p) :: st)) :=
  List.perm_middle.symm

theorem Traversing.popped_not_done (h : Traversing n ns root done ((k, p) :: st) c) : k ∉ done := by
  have hd := seen_perm_pop.nodup_iff.2 h.distinct
  intro hk
  exact (List.nodup_cons.1 hd).1 (List.mem_append_left _ hk)

/-- A popped leaf's path goes into the table. -/
theorem Traversing.popLeaf (ht : TreeOk n ns root) (h : Traversing n ns root done ((k, p) :: st) c)
    (hleaf : (nodeAt ns k).leaf = true) :
    Traversing n ns root (k :: done) st (tableSet c (nodeAt ns k).sym (codeOf p)) := by
  have hperm : (seen (k :: done) st).Perm (seen done ((k, p) :: st)) := seen_perm_pop
  have hk : k.toNat < ns.length := h.inArena k (by simp)
  have hkn : k.toNat < n := (ht.leaf_iff hk).1 hleaf
  constructor
  case distinct => exact hperm.nodup_iff.2 h.distinct
  case inArena => exact fun x hx => h.inArena x (hperm.subset hx)
  case rootSeen => exact hperm.symm.subset h.rootSeen
  case children =>
    intro j hj x hx
    obtain rfl | hj := List.mem_cons.1 hj
    · simp [IsParent, hleaf] at hx
    · exact hperm.symm.subset (h.children j hj x hx)
  case parents =>
    intro x hx
    exact (h.parents x (hperm.subset hx)).imp_right fun ⟨j, hj, hp⟩ => ⟨j, List.mem_cons_of_mem _ hj, hp⟩
  case paths => exact fun e he => h.paths e (List.mem_cons_of_mem _ he)
  case codes =>
    intro j hj hjn
    obtain rfl | hj := List.mem_cons.1 hj
    · exact ⟨p, h.paths (j, p) (List.mem_cons_self ..), tableGet_tableSet_self ..⟩
    · obtain ⟨q, hq, hc⟩ := h.codes j hj hjn
      refine ⟨q, hq, (tableGet_tableSet_other _ _ fun he => ?_).trans hc⟩
      have hjk := ht.sym_injective hjn hkn (h.inArena j (by simp [hj])) hk he
      exact h.popped_not_done (hjk ▸ hj)
  case absent =>
    intro s hs
    refine (tableGet_tableSet_other _ _ fun he => ?_).trans (h.absent s hs)
    exact hs k.toNat hk hkn (by rw [he, nodeAt_of_lt hk])

/-- The children of a popped internal node have not been met before. -/
theorem Traversing.child_not_seen (ht : TreeOk n ns root) (h : Traversing n ns root done ((k, p) :: st) c)
    {x : NodeIdx} (hx : IsParent ns k x) (hlt : x.toNat < ns.length) (hn : n ≠ 0) :
    x ∉ seen done ((k, p) :: st) := by
  have hk : k.toNat < ns.length := h.inArena k (by simp)
  intro hmem
  obtain rfl | ⟨j, hj, hjx⟩ := h.parents x hmem
  · exact ht.root_no_parent hn hk hx
  · have hjk := ht.parent_unique (h.inArena j (by simp [hj])) hk hlt hjx hx
    exact h.popped_not_done (hjk ▸ hj)

/-- A popped internal node's children go onto the stack, with their paths. -/
theorem Traversing.popInner (ht : TreeOk n ns root) (hn : n ≠ 0) (h : Traversing n ns root done ((k, p) :: st) c)
    (hinner : (nodeAt ns k).leaf = false) :
    Traversing n ns root (k :: done)
      (((nodeAt ns k).left, p ++ [false]) :: ((nodeAt ns k).right, p ++ [true]) :: st) c := by
  have hk : k.toNat < ns.length := h.inArena k (by simp)
  have hpath := h.paths (k, p) (List.mem_cons_self ..)
  have hleft : IsParent ns k (nodeAt ns k).left := ⟨hinner, .inl rfl⟩
  have hright : IsParent ns k (nodeAt ns k).right := ⟨hinner, .inr rfl⟩
  have hleftLt : (nodeAt ns k).left.toNat < ns.length := (ht.child_lt hk hinner false).trans hk
  have hrightLt : (nodeAt ns k).right.toNat < ns.length := (ht.child_lt hk hinner true).trans hk
  have hne : (nodeAt ns k).left ≠ (nodeAt ns k).right := by
    have hnode := ht.innerNode k.toNat hk (nodeAt_of_lt hk ▸ hinner)
    rw [nodeAt_of_lt hk]
    exact hnode.2.1
  have hperm : (seen (k :: done) (((nodeAt ns k).left, p ++ [false]) :: ((nodeAt ns k).right, p ++ [true]) :: st)).Perm
      ((nodeAt ns k).left :: (nodeAt ns k).right :: seen done ((k, p) :: st)) :=
    (List.perm_middle.trans (List.perm_middle.cons _)).trans ((seen_perm_pop.cons _).cons _)
  have hmem {x : NodeIdx} :
      x ∈ seen (k :: done) (((nodeAt ns k).left, p ++ [false]) :: ((nodeAt ns k).right, p ++ [true]) :: st) ↔
        x = (nodeAt ns k).left ∨ x = (nodeAt ns k).right ∨ x ∈ seen done ((k, p) :: st) := by
    rw [hperm.mem_iff, List.mem_cons, List.mem_cons]
  constructor
  case distinct =>
    rw [hperm.nodup_iff, List.nodup_cons, List.nodup_cons, List.mem_cons, not_or]
    exact ⟨⟨hne, h.child_not_seen ht hleft hleftLt hn⟩, h.child_not_seen ht hright hrightLt hn, h.distinct⟩
  case inArena =>
    intro x hx
    obtain rfl | rfl | hx := hmem.1 hx
    · exact hleftLt
    · exact hrightLt
    · exact h.inArena x hx
  case rootSeen => exact hmem.2 (.inr (.inr h.rootSeen))
  case children =>
    intro j hj x hx
    obtain rfl | hj := List.mem_cons.1 hj
    · obtain ⟨-, rfl | rfl⟩ := hx
      · exact hmem.2 (.inl rfl)
      · exact hmem.2 (.inr (.inl rfl))
    · exact hmem.2 (.inr (.inr (h.children j hj x hx)))
  case parents =>
    intro x hx
    obtain rfl | rfl | hx := hmem.1 hx
    · exact .inr ⟨k, List.mem_cons_self .., hleft⟩
    · exact .inr ⟨k, List.mem_cons_self .., hright⟩
    · exact (h.parents x hx).imp_right fun ⟨j, hj, hp⟩ => ⟨j, List.mem_cons_of_mem _ hj, hp⟩
  case paths =>
    intro e he
    obtain rfl | rfl | he := by simpa only [List.mem_cons] using he
    · exact followPath_snoc hpath hinner false
    · exact followPath_snoc hpath hinner true
    · exact h.paths e (List.mem_cons_of_mem _ he)
  case codes =>
    intro j hj hjn
    obtain rfl | hj := List.mem_cons.1 hj
    · exact absurd ((ht.inner_iff hk).1 hinner) (not_le.2 hjn)
    · exact h.codes j hj hjn
  case absent => exact h.absent

theorem Traversing.seen_length_le (h : Traversing n ns root done st c) : done.length + st.length ≤ ns.length := by
  have hnd : ((seen done st).map BitVec.toNat).Nodup :=
    h.distinct.map fun a b => BitVec.eq_of_toNat_eq
  have hsub : (seen done st).map BitVec.toNat ⊆ List.range ns.length := by
    intro x hx
    obtain ⟨k, hk, rfl⟩ := List.mem_map.1 hx
    exact List.mem_range.2 (h.inArena k hk)
  simpa [seen] using (hnd.subperm hsub).length_le

/-- Since every node is popped once, the bound on the pops never ends the traversal. -/
theorem Traversing.finish (ht : TreeOk n ns root) (hn : n ≠ 0) (f : Nat) (h : Traversing n ns root done st c)
    (hf : ns.length ≤ f + done.length) :
    ∃ done', Traversing n ns root done' [] (traverse ns f st c) := by
  induction f generalizing done st c with
  | zero =>
    have hlen := h.seen_length_le
    obtain rfl : st = [] := List.length_eq_zero_iff.1 (by omega)
    exact ⟨done, h⟩
  | succ f ih =>
    match st with
    | [] => exact ⟨done, h⟩
    | (k, p) :: st =>
      have hf' : ns.length ≤ f + (k :: done).length := by rw [List.length_cons]; omega
      cases hleaf : (nodeAt ns k).leaf with
      | true =>
        rw [traverse_leaf hleaf]
        exact ih (h.popLeaf ht hleaf) hf'
      | false =>
        rw [traverse_inner hleaf]
        exact ih (h.popInner ht hn hleaf) hf'

/-- When the stack is empty every node has been popped: the root was, and with every internal node its children. -/
theorem Traversing.mem_done (ht : TreeOk n ns root) (h : Traversing n ns root done [] c) (k : NodeIdx)
    (hk : k.toNat < ns.length) : k ∈ done := by
  have hseen {x : NodeIdx} (hx : x ∈ seen done []) : x ∈ done := by simpa using hx
  induction hm : ns.length - k.toNat using Nat.strong_induction_on generalizing k with
  | _ m ih =>
    by_cases hroot : k = root
    · exact hroot ▸ hseen h.rootSeen
    · obtain ⟨j, hj, hlt, hparent⟩ := ht.exists_parent hk hroot
      exact hseen (h.children j (ih (ns.length - j.toNat) (by omega) j hj rfl) k hparent)

end Traversal

/-! ### The derived table -/

theorem TreeOk.ofNat_lt {n : Nat} {ns : List Node} {root : NodeIdx} (h : TreeOk n ns root) {k : Nat}
    (hk : k < ns.length) : (BitVec.ofNat 9 k).toNat < ns.length := by
  rwa [h.ofNat_toNat hk]

theorem TreeOk.nodeAt_ofNat {n : Nat} {ns : List Node} {root : NodeIdx} (h : TreeOk n ns root) {k : Nat}
    (hk : k < ns.length) : nodeAt ns (BitVec.ofNat 9 k) = ns[k] := by
  rw [nodeAt_of_lt (h.ofNat_lt hk)]
  simp only [h.ofNat_toNat hk]

theorem tableOk_traverse {n : Nat} {ns : List Node} {root : NodeIdx} (ht : TreeOk n ns root) (hn : 2 ≤ n) :
    TableOk n ns root (traverse ns ns.length [(root, [])] noCodes) := by
  have hn0 : n ≠ 0 := by omega
  obtain ⟨done, h⟩ := (traversing_start ht hn0).finish ht hn0 ns.length (by simp)
  constructor
  case path =>
    intro _ k hk hkn
    have hdone := h.mem_done ht (BitVec.ofNat 9 k) (ht.ofNat_lt hk)
    obtain ⟨p, hp, hc⟩ := h.codes _ hdone (by rwa [ht.ofNat_toNat hk])
    rw [ht.nodeAt_ofNat hk] at hc
    rw [hc]
    refine ⟨hp, Nat.mod_eq_of_lt ?_⟩
    have hlen := ht.path_length_le (ht.root_lt hn0) hp
    have hroot := ht.rootIndex
    have hmax := ht.alphabet
    omega
  case single => intro h1; omega
  case absent => exact h.absent

theorem tableOk_single {ns : List Node} {root : NodeIdx} (ht : TreeOk 1 ns root) :
    TableOk 1 ns root (tableSet noCodes (nodeAt ns 0).sym (codeOf [false])) := by
  have hlen : ns.length = 1 := ht.size
  have hzero : nodeAt ns 0 = ns[0] := nodeAt_of_lt (k := 0) (by simp [hlen])
  constructor
  case path => intro h2; omega
  case single =>
    intro _ k hk
    obtain rfl : k = 0 := by omega
    rw [hzero]
    exact tableGet_tableSet_self ..
  case absent =>
    intro s hs
    rw [tableGet_tableSet_other, tableGet_noCodes]
    · rfl
    · rw [hzero]
      exact (hs 0 (by omega) Nat.one_pos).symm

theorem tableOk_noCodes {ns : List Node} {root : NodeIdx} : TableOk 0 ns root noCodes where
  path := by intro h; omega
  single := by intro h; omega
  absent s _ := tableGet_noCodes s

/-- The derivation gives every strict binary tree its code table (R120, R122, R123). -/
theorem tableOk_deriveCodes {n : Nat} {ns : List Node} {root : NodeIdx} (ht : TreeOk n ns root) :
    TableOk n ns root (deriveCodes n ns root) := by
  unfold deriveCodes
  split
  next h0 => exact h0 ▸ tableOk_noCodes
  next h0 =>
    split
    next h1 => subst h1; exact tableOk_single ht
    next h1 => exact tableOk_traverse ht (by omega)

end Sys2Proof.Machine

/-! SUPPORT. The machine's invariant: it holds after reset, and every step keeps it. -/

namespace Sys2Proof.Machine

/-- The part of the invariant that speaks of the published state. -/
structure PublishedOk (s : State) : Prop where
  tree   : TreeOk s.nsym.toNat s.node s.root
  merged : MergedArena s.nsym.toNat s.node
  length : s.textLen = if s.nsym = 0 then 0 else (nodeAt s.node s.root).freq
  width  : s.textLen ≤ s.lenW.lenMax
  table  : TableOk s.nsym.toNat s.node s.root s.code

theorem sound_iff {s : State} : Sound s ↔ CountsOk s ∧ ErrOk s ∧ PublishedOk s ∧ CursorOk s :=
  ⟨fun h => ⟨h.counts, h.err, ⟨h.tree, h.merged, h.length, h.width, h.table⟩, h.cursor⟩,
    fun ⟨hc, he, hp, hk⟩ => ⟨hc, he, hp.tree, hp.merged, hp.length, hp.width, hp.table, hk⟩⟩

/-! ### After reset -/

theorem treeOk_nil : TreeOk 0 [] 0 where
  alphabet  := Nat.zero_le _
  size      := rfl
  rootIndex := rfl
  leaves _ h := absurd h (Nat.not_lt_zero _)
  leafNode _ h := absurd h (Nat.not_lt_zero _)
  innerNode _ h := absurd h (Nat.not_lt_zero _)
  owned _ h := absurd h (Nat.not_lt_zero _)
  ascending _ h := absurd h (Nat.not_lt_zero _)

theorem publishedOk_resetWith (w : LenW) : PublishedOk (State.resetWith w) where
  tree   := treeOk_nil
  merged _ h := absurd h (Nat.not_lt_zero _)
  length := rfl
  width  := Nat.zero_le _
  table  := tableOk_noCodes

/-- Settles O32: the counts are 0, no error is pending, the tree is the empty one and the cursor stands at its root. -/
theorem resetMeetsInvariant : Obligations.ResetMeetsInvariant := by
  unfold Obligations.ResetMeetsInvariant
  intro w
  exact sound_iff.2 ⟨countsOk_resetWith w, zero_mem_errAllowed .., publishedOk_resetWith w, cursorOk_resetWith w⟩

/-! ### After a step -/

/-- What a successful build publishes is a tree of the merge engine with its text length and its code table (R113). -/
theorem publishedOk_buildAndPublish {s : State} (h : CountsOk s) : PublishedOk (buildAndPublish s) := by
  have hn := enumerateLeaves_length_le s.freq
  have hnsym : (buildAndPublish s).nsym.toNat = (enumerateLeaves s.freq).length := Nat.mod_eq_of_lt (by omega)
  obtain ⟨-, htree, hmerged, hroot⟩ := buildTree_spec (w := s.lenW) (freq := s.freq) (h.sum ▸ h.bound)
  constructor
  case tree => rw [hnsym]; exact htree
  case merged => rw [hnsym]; exact hmerged
  case length =>
    show s.wlen = _
    split
    next h0 =>
      have hnil : enumerateLeaves s.freq = [] := List.length_eq_zero_iff.1 (by rw [← hnsym, h0]; rfl)
      rw [h.sum, ← enumerateLeaves_sum, hnil]
      rfl
    next h0 =>
      have hne : enumerateLeaves s.freq ≠ [] := fun hnil => toNat_ne_zero h0 (by rw [hnsym, hnil]; rfl)
      rw [h.sum]
      exact (hroot hne).symm
  case width => exact h.bound
  case table => rw [hnsym]; exact tableOk_deriveCodes htree

theorem publishedOk_effect {i : Instr} {s : State} (hc : CountsOk s) (hp : PublishedOk s) :
    PublishedOk (effect i s) := by
  by_cases hbuild : i = .bldEnd ∧ s.err = 0
  · obtain ⟨rfl, he⟩ := hbuild
    have h := publishedOk_buildAndPublish hc
    rw [effect_bldEnd_of_ok he]
    exact ⟨h.tree, h.merged, h.length, h.width, h.table⟩
  · obtain ⟨m, e, f, w, k, ws, heff⟩ := effect_frame hbuild
    rw [heff]
    exact ⟨hp.tree, hp.merged, hp.length, hp.width, hp.table⟩

theorem sound_effect {i : Instr} {s : State} (hs : Sound s) (hl : legalIn i s.mode = true) :
    Sound (effect i s) := by
  obtain ⟨hcounts, herr, hpub, hcursor⟩ := sound_iff.1 hs
  exact sound_iff.2 ⟨countsOk_effect hcounts, errOk_effect herr hl, publishedOk_effect hcounts hpub,
    cursorOk_effect hpub.tree hcursor hl⟩

theorem sound_ignoresStreams : IgnoresStreams Sound := fun _ _ _ _ hs =>
  ⟨⟨hs.counts.sum, hs.counts.bound⟩, hs.err, hs.tree, hs.merged, hs.length, hs.width, hs.table,
    ⟨hs.cursor.closed, hs.cursor.small, hs.cursor.inner⟩⟩

/-- Settles O33: counts, error codes and cursor are kept on their own; the published state changes only by a
successful build, whose arena is the merge engine's and whose table is the traversal's. -/
theorem stepKeepsInvariant : Obligations.StepKeepsInvariant := by
  unfold Obligations.StepKeepsInvariant
  intro s t hs h
  exact step_keeps sound_ignoresStreams resetMeetsInvariant hs
    (fun i rest hl => sound_effect (sound_ignoresStreams s s.fault rest s.rsp hs) hl) h

end Sys2Proof.Machine

/-! SUPPORT. The two reads, `RD_REG` and `RD_CODE` (20_memory.md R55): what they append does not depend on what they
write. -/

namespace Sys2Proof.Machine

theorem exec_of_rejected {i : Instr} {s : State} (h : rejected i s = true) :
    exec i s = .next (raiseFault (if legalIn i s.mode then .reg else .seq) s) := by
  rw [exec_eq_effect, if_pos h]

theorem exec_of_not_rejected {i : Instr} {s : State} (h : rejected i s = false) :
    exec i s = .next (effect i s) := by
  simp [exec_eq_effect, h]

/-- An executed read appends words that are fixed by the state without its response stream, and changes nothing
else. -/
theorem effect_of_read {i : Instr} (hi : (∃ r, i = .rdReg r) ∨ ∃ c, i = .rdCode c) (s : State) :
    ∃ ws, ∀ stream, effect i { s with rsp := stream } = { s with rsp := stream ++ ws } := by
  obtain ⟨r, rfl⟩ | ⟨c, rfl⟩ := hi
  · exact ⟨[rspWord .reg ((regRead r s).getD 0)], fun _ => rfl⟩
  · exact ⟨rspWord .len (tableGet s.code c).len :: (codeChars (tableGet s.code c)).map (rspWord .bit),
      fun stream => by simp [effect, emitCode, emitAll, emit]⟩

/-- Settles O45: the tests for rejection see neither `FAULT` nor the responses, so a rejected read is rejected again
with the same fault, and an executed one is executed again with the same words. -/
theorem readsHaveNoSideEffect : Obligations.ReadsHaveNoSideEffect := by
  unfold Obligations.ReadsHaveNoSideEffect
  intro i s hi
  cases hr : rejected i s with
  | true =>
    have hagain : rejected i (raiseFault (if legalIn i s.mode then .reg else .seq) s) = true := hr
    exact ⟨_, _, _, exec_of_rejected hr, rfl, nofun, exec_of_rejected hagain, rfl⟩
  | false =>
    obtain ⟨ws, heffect⟩ := effect_of_read hi s
    have hagain : rejected i { s with rsp := s.rsp ++ ws } = false := hr
    refine ⟨ws, { s with rsp := s.rsp ++ ws }, { s with rsp := s.rsp ++ ws ++ ws }, ?_, rfl, fun _ => rfl, ?_, rfl⟩
    · rw [exec_of_not_rejected hr, heffect s.rsp]
    · rw [exec_of_not_rejected hagain, heffect (s.rsp ++ ws)]

end Sys2Proof.Machine

/-! SUPPORT. The command words (30_encoding.md R71 to R75): their fields, what the decoder answers on every word, and
how many words are commands. -/

namespace Sys2Proof

/-! ### The fields of a word -/

theorem opField_toNat (w : Word) : (opField w).toNat = wordOp w := by
  have := w.isLt
  rw [opField, BitVec.extractLsb'_toNat, Nat.shiftRight_eq_div_pow, wordOp]
  omega

theorem rsvField_toNat (w : Word) : (rsvField w).toNat = wordRsv w := by
  rw [rsvField, BitVec.extractLsb'_toNat, Nat.shiftRight_eq_div_pow]
  rfl

theorem argField_toNat (w : Word) : (argField w).toNat = wordArg w := by
  rw [argField, BitVec.extractLsb'_toNat, Nat.shiftRight_zero]
  rfl

theorem wordOp_commandWord (op : BitVec 4) (arg : Byte) : wordOp (commandWord op arg) = op.toNat := by
  have := arg.isLt
  rw [wordOp, Laws.EncodeWord.commandWord_toNat]
  omega

theorem wordRsv_commandWord (op : BitVec 4) (arg : Byte) : wordRsv (commandWord op arg) = 0 := by
  have := arg.isLt
  rw [wordRsv, Laws.EncodeWord.commandWord_toNat]
  omega

theorem wordArg_commandWord (op : BitVec 4) (arg : Byte) : wordArg (commandWord op arg) = arg.toNat := by
  have := arg.isLt
  rw [wordArg, Laws.EncodeWord.commandWord_toNat]
  omega

@[simp] theorem opField_commandWord (op : BitVec 4) (arg : Byte) : opField (commandWord op arg) = op :=
  BitVec.eq_of_toNat_eq (by rw [opField_toNat, wordOp_commandWord])

@[simp] theorem rsvField_commandWord (op : BitVec 4) (arg : Byte) : rsvField (commandWord op arg) = 0 :=
  BitVec.eq_of_toNat_eq (by rw [rsvField_toNat, wordRsv_commandWord]; rfl)

@[simp] theorem argField_commandWord (op : BitVec 4) (arg : Byte) : argField (commandWord op arg) = arg :=
  BitVec.eq_of_toNat_eq (by rw [argField_toNat, wordArg_commandWord])

/-- A word whose reserved field is 0 is the command word of its other two fields. -/
theorem commandWord_of_fields {w : Word} {op : Nat} (hrsv : rsvField w = 0) (hop : (opField w).toNat = op) :
    commandWord (BitVec.ofNat 4 op) (argField w) = w := by
  have hr : wordRsv w = 0 := by rw [← rsvField_toNat, hrsv]; rfl
  apply BitVec.eq_of_toNat_eq
  rw [← hop, BitVec.ofNat_toNat, BitVec.setWidth_eq, Laws.EncodeWord.commandWord_toNat, opField_toNat, argField_toNat]
  unfold wordOp wordRsv wordArg at *
  omega

/-! ### The decoder -/

theorem decode_encode (i : Instr) : decode (encode i) = .ok i := by
  cases i <;> simp [encode, decode, formatZWord]

theorem wellFormedWord_encode (i : Instr) : wellFormedWord (encode i) = true := by
  cases i <;> simp [encode, wellFormedWord, opcodeAssigned, reservedZero, operandAllowed, formatZ, wordOp_commandWord,
    wordRsv_commandWord, wordArg_commandWord]

/-- What the decoder may answer on a word: the command that the word encodes, or an error on an ill-formed word. -/
def AnswersWord (w : Word) : Except IllegalWord Instr → Prop
  | .ok i => encode i = w
  | .error _ => wellFormedWord w = false

/-- An opcode of format Z is answered by its command when the operand field is 0, by an error otherwise (R72). -/
theorem answersWord_formatZWord {w : Word} {i : Instr} {op : Nat} (hrsv : rsvField w = 0)
    (hop : (opField w).toNat = op) (hz : formatZ op = true) (hi : encode i = commandWord (BitVec.ofNat 4 op) 0) :
    AnswersWord w (formatZWord i (argField w)) := by
  unfold formatZWord
  split
  next harg => exact hi.trans (harg ▸ commandWord_of_fields hrsv hop)
  next harg =>
    have hne : wordArg w ≠ 0 := fun h => harg (BitVec.eq_of_toNat_eq (by rw [argField_toNat, h]; rfl))
    have hwz : formatZ (wordOp w) = true := by rw [← opField_toNat, hop, hz]
    simp [AnswersWord, wellFormedWord, operandAllowed, hwz, hne]

/-- The decoder by its branches: the reserved field, the opcodes of format Z, those of format B, the reserved ones. -/
theorem decode_answersWord (w : Word) : AnswersWord w (decode w) := by
  unfold decode
  split
  next hrsv =>
    have hne : wordRsv w ≠ 0 := fun h => hrsv (BitVec.eq_of_toNat_eq (by rw [rsvField_toNat, h]; rfl))
    simp [AnswersWord, wellFormedWord, reservedZero, hne]
  next hrsv =>
    rw [ne_eq, not_not] at hrsv
    dsimp only
    split
    case h_1 hop | h_2 hop | h_4 hop | h_5 hop | h_7 hop | h_8 hop | h_10 hop =>
      exact answersWord_formatZWord hrsv hop rfl rfl
    case h_3 hop | h_6 hop | h_9 hop | h_11 hop | h_12 hop => exact commandWord_of_fields hrsv hop
    case h_13 =>
      have hop : 12 ≤ wordOp w := by
        rw [← opField_toNat]
        simp only [imp_false] at *
        omega
      simp [AnswersWord, wellFormedWord, opcodeAssigned, hop]

theorem encode_of_decode {w : Word} {i : Instr} (h : decode w = .ok i) : encode i = w := by
  have hw := decode_answersWord w
  rw [h] at hw
  exact hw

/-- The words that are no command are the ill-formed ones. -/
theorem decode_eq_error_iff (w : Word) : (∃ e, decode w = .error e) ↔ wellFormedWord w = false := by
  constructor
  · rintro ⟨e, he⟩
    have hw := decode_answersWord w
    rw [he] at hw
    exact hw
  · intro hw
    cases h : decode w with
    | error e => exact ⟨e, rfl⟩
    | ok i => rw [← encode_of_decode h, wellFormedWord_encode] at hw; cases hw

theorem wellFormedWord_eq_false_iff (w : Word) :
    wellFormedWord w = false ↔ 12 ≤ wordOp w ∨ wordRsv w ≠ 0 ∨ (wordOp w ∈ [0, 1, 3, 4, 6, 7, 9] ∧ wordArg w ≠ 0) := by
  have hz : formatZ (wordOp w) = true ↔ wordOp w ∈ [0, 1, 3, 4, 6, 7, 9] := by simp [formatZ, or_assoc]
  rw [← hz]
  simp [wellFormedWord, opcodeAssigned, reservedZero, operandAllowed, imp_iff_not_or, or_assoc]

/-! ### The number of commands -/

/-- Every command, once: seven without an operand and five with 256 operands each. -/
def allCommands : List Instr :=
  [.nop, .bldBegin, .bldEnd, .encBegin, .encEnd, .decBegin, .decEnd] ++
    [Instr.bldSym, .encSym, .decBit, .rdCode, .rdReg].flatMap fun c => Machine.allSymbols.map c

theorem mem_allCommands (i : Instr) : i ∈ allCommands := by
  cases i <;> simp [allCommands, Machine.mem_allSymbols]

theorem allCommands_length : allCommands.length = 1287 := by
  simp [allCommands, Machine.allSymbols]

theorem allCommands_nodup : allCommands.Nodup := by
  have hs : Machine.allSymbols.Nodup := Machine.allSymbols_ascending.imp BitVec.ne_of_lt
  simp [allCommands, List.nodup_append, List.nodup_map_iff_inj_on hs, or_imp, forall_and]

theorem decodeTableWord_isSome_iff {n : Nat} (hn : n < 65536) :
    (decodeTableWord 16 n).isSome ↔ ∃ i, (encode i).toNat = n := by
  have hw : (BitVec.ofNat 16 n).toNat = n := Nat.mod_eq_of_lt hn
  have ht : tableWord 16 n = BitVec.ofNat 16 n := by rw [← hw, tableWord_toNat, hw]
  rw [decodeTableWord, ht]
  constructor
  · cases h : decode (BitVec.ofNat 16 n) with
    | ok i => exact fun _ => ⟨i, by rw [encode_of_decode h, hw]⟩
    | error e => simp
  · rintro ⟨i, rfl⟩
    simp [decode_encode]

theorem encode_toNat_injective : Function.Injective fun i => (encode i).toNat := by
  intro i j h
  have hd := decode_encode i
  rw [BitVec.eq_of_toNat_eq h, decode_encode j] at hd
  exact (Except.ok.inj hd).symm

/-- The numbers of the words below a bound that are commands. The bound is a variable in the lemmas, so that no proof
evaluates the list of all words. -/
def legalWords (bound : Nat) : List Nat := (List.range bound).filter fun n => (decodeTableWord 16 n).isSome

/-- The legal words are the encodings of all commands, each once. -/
theorem legalWords_perm {bound : Nat} (hb : bound = 65536) :
    (legalWords bound).Perm (allCommands.map fun i => (encode i).toNat) := by
  have hnodup : (legalWords bound).Nodup := List.nodup_range.filter _
  have hnodup' := allCommands_nodup.map encode_toNat_injective
  refine (List.perm_ext_iff_of_nodup hnodup hnodup').2 fun n => ?_
  rw [legalWords, List.mem_filter, List.mem_range, List.mem_map]
  constructor
  · rintro ⟨hn, h⟩
    obtain ⟨i, hi⟩ := (decodeTableWord_isSome_iff (hb ▸ hn)).1 h
    exact ⟨i, mem_allCommands i, hi⟩
  · rintro ⟨i, -, rfl⟩
    have hi := (encode i).isLt
    exact ⟨hb ▸ hi, (decodeTableWord_isSome_iff hi).2 ⟨i, rfl⟩⟩

theorem legalWords_length {bound : Nat} (hb : bound = 65536) : (legalWords bound).length = 1287 := by
  rw [(legalWords_perm hb).length_eq, List.length_map, allCommands_length]

theorem illegalWords_length {bound : Nat} (hb : bound = 65536) :
    ((List.range bound).filter fun n => (decodeTableWord 16 n).isNone).length = 64249 := by
  have hlegal := legalWords_length hb
  have hall := List.length_eq_length_filter_add (l := List.range bound) fun n => (decodeTableWord 16 n).isSome
  rw [legalWords] at hlegal
  rw [hlegal, List.length_range] at hall
  simp only [Option.not_isSome] at hall
  omega

end Sys2Proof

namespace Sys2Proof.Machine

/-- Settles O1: the decoder inverts the encoder command by command, and answers a word only by its own command. -/
theorem decodeEncodeAgree : Obligations.DecodeEncodeAgree := by
  unfold Obligations.DecodeEncodeAgree
  exact ⟨decode_encode, fun w i => encode_of_decode⟩

/-- Settles O3: the words are the encodings of their commands. -/
theorem opcodeMapWords : Obligations.OpcodeMapWords := by
  unfold Obligations.OpcodeMapWords
  exact ⟨decode_encode .nop, decode_encode .bldBegin, decode_encode (.bldSym 0x61), decode_encode .bldEnd,
    decode_encode .encBegin, decode_encode (.encSym 0xFF), decode_encode .encEnd, decode_encode .decBegin,
    decode_encode (.decBit 0x31), decode_encode .decEnd, decode_encode (.rdCode 0x80), decode_encode (.rdReg 0x0B)⟩

/-- The error case of the step: an illegal word at the head of the host's list is rejected with F_ILLEGAL (R75). -/
theorem step_of_illegal_word {s : State} {w : Word} {rest : List HostAct} {e : IllegalWord}
    (hhost : s.host = .cmd w :: rest) (hdec : decode w = .error e) :
    step s = .next (raiseFault .illegal { s with host := rest }) := by
  simp only [step, hhost, hdec]

/-- Settles O2: the illegal words are the ill-formed ones, the legal ones are counted as the encodings of all
commands. -/
theorem illegalWordsRejected : Obligations.IllegalWordsRejected := by
  unfold Obligations.IllegalWordsRejected
  refine ⟨fun w => (decode_eq_error_iff w).trans (wellFormedWord_eq_false_iff w), ?_, ?_, ?_⟩
  · rintro s w rest hhost ⟨e, he⟩
    exact step_of_illegal_word hhost he
  · exact legalWords_length (bound := 65536) rfl
  · exact illegalWords_length (bound := 65536) rfl

end Sys2Proof.Machine

/-! SUPPORT. The frame grammar (30_encoding.md R78), and the response words of every command and of every step
(30_encoding.md R80, R81, R86). -/

namespace Sys2Proof.Machine

/-! ### The frame grammar -/

theorem unlessError_mode {body : State → State} {s : State} (h : (body s).mode = s.mode) :
    (unlessError body s).mode = s.mode :=
  unlessError_induction (P := fun t => t.mode = s.mode) (fun _ => rfl) fun _ => h

theorem effect_mode (i : Instr) (s : State) : (effect i s).mode = nextMode i s.mode := by
  cases i with
  | bldSym c =>
    obtain ⟨e, f, w, hc⟩ := countSymbol_frame c s
    exact unlessError_mode (by rw [hc])
  | encSym c =>
    obtain ⟨e, ws, hc⟩ := encodeSymbol_frame c s
    exact unlessError_mode (by rw [hc])
  | decBit c =>
    obtain ⟨e, k, ws, hc⟩ := decodeChar_frame c s
    exact unlessError_mode (by rw [hc])
  | _ => rfl

/-- A command that is legal in its mode is rejected only when it reads an unassigned register, which leaves `MODE`
as the table says. -/
theorem nextMode_of_legal_rejected {i : Instr} {s : State} (hl : legalIn i s.mode = true) (hr : rejected i s = true) :
    nextMode i s.mode = s.mode := by
  cases i with
  | rdReg r => rfl
  | _ => simp [rejected, hl] at hr

theorem exec_of_not_legal {i : Instr} {s : State} (hl : legalIn i s.mode = false) :
    exec i s = .next (raiseFault .seq s) := by
  rw [exec_of_rejected (by simp [rejected, hl]), if_neg (by simp [hl])]

/-- Settles O8: an executed command has its effect's mode, a rejected legal one is a register read, and an illegal one
takes F_SEQ. -/
theorem frameGrammarEnforced : Obligations.FrameGrammarEnforced := by
  unfold Obligations.FrameGrammarEnforced
  refine fun i s => ⟨fun hl => ?_, exec_of_not_legal⟩
  cases hr : rejected i s with
  | true => exact ⟨_, exec_of_rejected hr, (nextMode_of_legal_rejected hl hr).symm, nofun⟩
  | false => exact ⟨_, exec_of_not_rejected hr, effect_mode i s, fun _ => effect_fault i s⟩

/-! ### The response words of a command -/

/-- The data byte a command that leaves `ERR` at `err` may put in a word of a kind (R81): a bit character, the status
`ERR`, a fault code; any byte in the other kinds. -/
def DataOk (err : BitVec 4) : RspKind → Byte → Prop
  | .bit, d => ∃ b, d = bitChar b
  | .status, d => d = err.setWidth 8
  | .fault, d => ∃ c, d = (faultCode c).setWidth 8
  | _, _ => True

/-- `t` extends the response stream of `s` by words of these kinds, in order, each with a data byte its kind allows. -/
def Answers (s t : State) (kinds : List RspKind) : Prop :=
  ∃ ps : List (RspKind × Byte), t.rsp = s.rsp ++ ps.map (fun p => rspWord p.1 p.2) ∧
    ps.map Prod.fst = kinds ∧ ∀ p ∈ ps, DataOk t.err p.1 p.2

theorem answers_nil {s t : State} {kinds : List RspKind} (hk : kinds = []) (h : t.rsp = s.rsp) : Answers s t kinds :=
  ⟨[], by simpa using h, hk.symm, by simp⟩

theorem answers_singleton {s t : State} {kinds : List RspKind} {k : RspKind} {d : Byte} (hk : kinds = [k])
    (h : t.rsp = s.rsp ++ [rspWord k d]) (hd : DataOk t.err k d) : Answers s t kinds :=
  ⟨[(k, d)], h, hk.symm, by simpa using hd⟩

theorem answers_raiseFault (c : CmdFault) (s : State) : Answers s (raiseFault c s) [.fault] :=
  answers_singleton rfl (raiseFault_rsp c s) ⟨c, rfl⟩

theorem answers_closeFrame {s t : State} {kinds : List RspKind} (hk : kinds = [.status]) (h : t.rsp = s.rsp) :
    Answers s (closeFrame t) kinds :=
  answers_singleton (d := t.err.setWidth 8) hk (by rw [closeFrame_rsp, h]) rfl

/-- A code is answered by as many bit words as its length says. -/
theorem answers_emitAll_codeChars {s t : State} {kinds : List RspKind} (h : Answers s t kinds) (e : CodeEntry) :
    Answers s (emitAll .bit (codeChars e) t) (kinds ++ List.replicate e.len.toNat .bit) := by
  obtain ⟨ps, hrsp, hkinds, hdata⟩ := h
  refine ⟨ps ++ (codeChars e).map fun d => (.bit, d), ?_, ?_, ?_⟩
  · simp [hrsp, Function.comp_def]
  · simp [hkinds, Function.comp_def, List.map_const']
  · intro p hp
    rw [List.mem_append, List.mem_map] at hp
    obtain hp | ⟨d, hd, rfl⟩ := hp
    · exact hdata p hp
    · obtain ⟨b, -, rfl⟩ := List.mem_map.1 hd
      exact ⟨b, rfl⟩

/-- A data command that meets a pending error answers nothing. -/
theorem responseKinds_of_pending {i : Instr} {s : State} (hd : isDataCommand i = true) (hr : rejected i s = false)
    (he : s.err ≠ 0) : responseKinds i s = [] := by
  have hno : ¬ rejected i s = true := by simp [hr]
  cases i with
  | bldSym c => exact if_neg hno
  | encSym c => exact (if_neg hno).trans (if_neg fun h => he h.1)
  | decBit c => exact (if_neg hno).trans (if_neg fun h => he h.1)
  | _ => cases hd

theorem answers_encodeSymbol {c : Byte} {s : State} (hr : rejected (.encSym c) s = false) (he : s.err = 0) :
    Answers s (encodeSymbol c s) (responseKinds (.encSym c) s) := by
  unfold encodeSymbol
  split
  next hn => exact answers_nil (by simp [responseKinds, hr, hn]) rfl
  next hn =>
    have hkinds : responseKinds (.encSym c) s = List.replicate (tableGet s.code c).len.toNat .bit :=
      (if_neg (by simp [hr])).trans (if_pos ⟨he, hn⟩)
    rw [hkinds]
    split
    next hlen => exact answers_nil (by simp [hlen]) rfl
    next => exact answers_emitAll_codeChars (answers_nil rfl rfl) _

theorem answers_decodeChar {c : Byte} {s : State} (hr : rejected (.decBit c) s = false) (he : s.err = 0) :
    Answers s (decodeChar c s) (responseKinds (.decBit c) s) := by
  unfold decodeChar
  split
  next hn => exact answers_nil (by simp [responseKinds, hr, hn]) rfl
  next hn =>
    split
    next hc => exact answers_nil (by simp [responseKinds, hr, hc]) rfl
    next b hc =>
      split
      next h1 =>
        cases b with
        | true => exact answers_nil (by simp [responseKinds, hr, hc, h1]) rfl
        | false => exact answers_singleton (k := .sym) (by simp [responseKinds, hr, he, hc, h1]) rfl trivial
      next h1 =>
        have hkinds : responseKinds (.decBit c) s =
            if (nodeAt s.node (child (nodeAt s.node s.cur) b)).leaf then [.sym] else [] := by
          rw [responseKinds, if_neg (by simp [hr])]
          simp only [hc]
          exact (if_pos ⟨he, hn⟩).trans (if_neg h1)
        rw [hkinds]
        simp only [decodeWalk]
        split
        · exact answers_singleton (k := .sym) rfl rfl trivial
        · exact answers_nil rfl rfl

/-- An executed command answers the words its row of R86 lists. -/
theorem answers_effect {i : Instr} {s : State} (hr : rejected i s = false) :
    Answers s (effect i s) (responseKinds i s) := by
  cases i with
  | bldSym c =>
    refine unlessError_induction (P := (Answers s · _)) (fun _ => answers_nil (by simp [responseKinds, hr]) rfl)
      fun _ => ?_
    obtain ⟨e, f, w, hc⟩ := countSymbol_frame c s
    exact answers_nil (by simp [responseKinds, hr]) (by rw [hc])
  | encSym c =>
    exact unlessError_induction (P := (Answers s · _))
      (fun he => answers_nil (responseKinds_of_pending rfl hr he) rfl) (answers_encodeSymbol hr)
  | decBit c =>
    exact unlessError_induction (P := (Answers s · _))
      (fun he => answers_nil (responseKinds_of_pending rfl hr he) rfl) (answers_decodeChar hr)
  | bldEnd =>
    exact answers_closeFrame (by simp [responseKinds, hr])
      (unlessError_induction (P := (·.rsp = s.rsp)) (fun _ => rfl) fun _ => rfl)
  | encEnd => exact answers_closeFrame (by simp [responseKinds, hr]) rfl
  | decEnd =>
    obtain ⟨e, hc⟩ := checkTruncation_frame s
    have hclose : Answers s (closeFrame (checkTruncation s)) (responseKinds .decEnd s) :=
      answers_closeFrame (by simp [responseKinds, hr]) (by rw [hc])
    exact hclose
  | rdCode c =>
    have hkinds : responseKinds (.rdCode c) s = [.len] ++ List.replicate (tableGet s.code c).len.toNat .bit := by
      simp [responseKinds, hr]
    rw [hkinds]
    exact answers_emitAll_codeChars (answers_singleton (k := .len) rfl rfl trivial) _
  | rdReg r => exact answers_singleton (k := .reg) (by simp [responseKinds, hr]) rfl trivial
  | _ => exact answers_nil (by simp [responseKinds, hr]) rfl

theorem exec_answers {i : Instr} {s t : State} (h : exec i s = .next t) : Answers s t (responseKinds i s) := by
  obtain ⟨hr, rfl⟩ | ⟨hr, -, rfl⟩ := exec_cases h
  · simpa [responseKinds, hr] using answers_raiseFault _ s
  · exact answers_effect hr

theorem rspWord_reserved (k : RspKind) (d : Byte) : (rspWord k d).toNat / 256 % 16 = 0 :=
  wordRsv_commandWord (kindCode k) d

/-- Settles O48: every command answers a next state, with the words of its row of R86. -/
theorem responseSequencePerCommand : Obligations.ResponseSequencePerCommand := by
  unfold Obligations.ResponseSequencePerCommand
  intro i s
  obtain ⟨t, ht⟩ : ∃ t, exec i s = .next t := ⟨_, exec_eq_effect i s⟩
  obtain ⟨ps, hrsp, hkinds, -⟩ := exec_answers ht
  refine ⟨t, _, ht, hrsp, ?_, ?_⟩
  · simp [← hkinds, Function.comp_def]
  · rw [List.forall_mem_map]
    exact fun p _ => rspWord_reserved p.1 p.2

/-! ### The response words of a step -/

/-- `ERR` holds a status code (30_encoding.md R82). -/
theorem le_six_of_errAllowed {m : Mode} {n : Nat} {e : BitVec 4} (h : e ∈ errAllowed m n) : e.toNat ≤ 6 := by
  have hi := mem_errAllowed_idle h 0
  simp only [errAllowed, List.mem_cons, List.not_mem_nil, or_false] at hi
  obtain rfl | rfl | rfl | rfl | rfl | rfl | rfl := hi <;> decide

theorem responseOk_rspWord {k : RspKind} {d : Byte} {err : BitVec 4} (herr : err.toNat ≤ 6) (hd : DataOk err k d) :
    responseOk (rspWord k d) = true := by
  have hkind : (rspWord k d).toNat / 4096 = (kindCode k).toNat := wordOp_commandWord (kindCode k) d
  have hdata : (rspWord k d).toNat % 256 = d.toNat := wordArg_commandWord (kindCode k) d
  rw [responseOk, rspWord_reserved, hkind, hdata]
  cases k with
  | bit => obtain ⟨b, rfl⟩ := hd; cases b <;> rfl
  | status =>
    obtain rfl := hd
    have hle : (err.setWidth 8).toNat ≤ 6 := (BitVec.toNat_setWidth 8 err ▸ Nat.mod_le ..).trans herr
    simpa [kindCode] using hle
  | fault => obtain ⟨c, rfl⟩ := hd; cases c <;> rfl
  | _ => rfl

theorem responsesOk_of_answers {s t : State} {kinds : List RspKind} (h : Answers s t kinds) (herr : t.err.toNat ≤ 6)
    (hs : ∀ v ∈ s.rsp, responseOk v = true) : ∀ v ∈ t.rsp, responseOk v = true := by
  obtain ⟨ps, hrsp, -, hdata⟩ := h
  rw [hrsp, List.forall_mem_append, List.forall_mem_map]
  exact ⟨hs, fun p hp => responseOk_rspWord herr (hdata p hp)⟩

/-- Settles O37: a step takes a word, discards all, or appends words whose data their kinds allow; a status word holds
`ERR`, which is a status code after the step. -/
theorem responsesStayWellFormed : Obligations.ResponsesStayWellFormed := by
  unfold Obligations.ResponsesStayWellFormed
  intro s t herr hs h
  have herr' : t.err.toNat ≤ 6 := le_six_of_errAllowed (stepKeepsErrorCodes s t herr h)
  obtain ⟨-, rfl⟩ | ⟨rest, -, rfl⟩ | ⟨rest, -, rfl⟩ | ⟨w, rest, i, -, -, hexec⟩ | ⟨w, rest, e, -, -, rfl⟩ :=
    step_cases h
  · exact hs
  · exact fun v hv => hs v (List.mem_of_mem_tail hv)
  · exact fun v hv => absurd hv List.not_mem_nil
  · exact responsesOk_of_answers (exec_answers hexec) herr' hs
  · exact responsesOk_of_answers (answers_raiseFault .illegal _) herr' hs

end Sys2Proof.Machine

/-! SUPPORT. The three commands of the tree builder (40_tree_builder.md R101 to R103, R113, R114): their exact next
states in every mode. -/

namespace Sys2Proof.Machine

/-- The status word of a frame as a number: kind 3, then `ERR` (30_encoding.md R80, R82). -/
theorem rspWord_status_err (e : BitVec 4) : rspWord .status (e.setWidth 8) = 0x3000 + e.setWidth 16 := by
  apply BitVec.eq_of_toNat_eq
  have := e.isLt
  have hkind : (kindCode .status).toNat = 3 := rfl
  have hbase : (0x3000 : Word).toNat = 0x3000 := rfl
  rw [rspWord_toNat, hkind, BitVec.toNat_add, BitVec.toNat_setWidth, BitVec.toNat_setWidth, hbase]
  omega

theorem exec_bldSym {s : State} (hm : s.mode = .build) (c : Byte) :
    exec (.bldSym c) s = .next (unlessError (countSymbol c) s) :=
  exec_of_not_rejected (by simp [rejected, legalIn, hm])

theorem exec_bldEnd {s : State} (hm : s.mode = .build) : exec .bldEnd s = .next (effect .bldEnd s) :=
  exec_of_not_rejected (by simp [rejected, legalIn, hm])

/-- Settles O10: in `IDLE` the command has its effect, elsewhere it takes F_SEQ. -/
theorem bldBeginOpensAndClears : Obligations.BldBeginOpensAndClears := by
  unfold Obligations.BldBeginOpensAndClears
  refine ⟨rfl, fun s => ⟨fun hm => ?_, fun hm => ?_⟩⟩
  · exact exec_of_not_rejected (by simp [rejected, legalIn, hm])
  · exact exec_of_not_legal (by simp [legalIn, hm])

/-! ### BLD_SYM -/

theorem encode_bldSym_toNat (c : Byte) : (encode (.bldSym c)).toNat = 0x2000 + c.toNat := by
  have hword := Laws.EncodeWord.bldSym c
  have hop : Laws.EncodeWord.opcode (.bldSym c) = 2 := rfl
  have harg : Laws.EncodeWord.operand (.bldSym c) = c.toNat := rfl
  rw [Laws.EncodeWord.Statement, hop, harg] at hword
  omega

/-- The exact count of one symbol more. -/
def addSymbol (c : Byte) (s : State) : State :=
  { s with freq := tableSet s.freq c (tableGet s.freq c + 1), wlen := s.wlen + 1 }

theorem countSymbol_of_full {s : State} (hfull : s.wlen = s.lenW.lenMax) (c : Byte) :
    countSymbol c s = frameError .capacity s := by
  rw [countSymbol, if_pos hfull]

/-- Below `LEN_MAX` no sum of sound counts is narrowed (R102). -/
theorem countSymbol_of_room {s : State} (h : CountsOk s) (hroom : s.wlen ≠ s.lenW.lenMax) (c : Byte) :
    countSymbol c s = addSymbol c s := by
  have hlt : s.wlen + 1 ≤ s.lenW.lenMax := by have := h.bound; omega
  have hc : tableGet s.freq c ≤ s.wlen := h.sum ▸ tableGet_le_sum s.freq c
  rw [countSymbol, if_neg hroom, addCount_of_le hlt, addCount_of_le (by omega)]
  rfl

/-- Settles O11: out of place, with an error pending, with the counters full, and with room for the symbol. -/
theorem bldSymCountsOneSymbol : Obligations.BldSymCountsOneSymbol := by
  unfold Obligations.BldSymCountsOneSymbol
  refine fun b => ⟨encode_bldSym_toNat b, fun s => ⟨fun hm => ?_, fun hm he => ?_, fun hm he hfull => ?_,
    fun hm he hroom hcounts => ?_⟩⟩
  · exact exec_of_not_legal (by simp [legalIn, hm])
  · rw [exec_bldSym hm, unlessError_eq, if_neg he]
  · rw [exec_bldSym hm, unlessError_eq, if_pos he, countSymbol_of_full hfull]
    rfl
  · rw [exec_bldSym hm, unlessError_eq, if_pos he, countSymbol_of_room hcounts hroom]
    rfl

/-! ### BLD_END -/

theorem exec_bldEnd_of_error {s : State} (hm : s.mode = .build) (he : s.err ≠ 0) :
    exec .bldEnd s = .next { s with mode := .idle, rsp := s.rsp ++ [0x3000 + s.err.setWidth 16] } := by
  rw [exec_bldEnd hm, effect_bldEnd_of_error he, ← rspWord_status_err]
  rfl

/-- A successful `BLD_END`: status 0 and publication in one step (R103, R113). -/
theorem exec_bldEnd_of_ok {s : State} (hm : s.mode = .build) (he : s.err = 0) :
    exec .bldEnd s = .next { buildAndPublish s with mode := .idle, rsp := s.rsp ++ [0x3000] } := by
  have hword : rspWord .status ((buildAndPublish s).err.setWidth 8) = 0x3000 := by
    rw [rspWord_status_err, show (buildAndPublish s).err = 0 from he]
    rfl
  rw [exec_bldEnd hm, effect_bldEnd_of_ok he, ← hword]
  rfl

/-- Settles O12: out of place, with an error pending, and successful. -/
theorem bldEndPublishesInOneStep : Obligations.BldEndPublishesInOneStep := by
  unfold Obligations.BldEndPublishesInOneStep
  refine ⟨rfl, fun s => ⟨fun hm => ?_, exec_bldEnd_of_error, exec_bldEnd_of_ok⟩⟩
  exact exec_of_not_legal (by simp [legalIn, hm])

/-- E_CAPACITY is the one error of a build frame (R114). -/
theorem err_eq_six_of_build {s : State} (herr : s.err ∈ errAllowed s.mode s.nsym.toNat) (hm : s.mode = .build)
    (he : s.err ≠ 0) : s.err = 6 := by
  rw [hm] at herr
  have hor : s.err = 0 ∨ s.err = 6 := by simpa [errAllowed] using herr
  exact hor.resolve_left he

/-- Settles O13: the error that is pending is E_CAPACITY, and `BLD_END` reports it. -/
theorem failedBuildPublishesNothing : Obligations.FailedBuildPublishesNothing := by
  unfold Obligations.FailedBuildPublishesNothing
  intro s hs hm he
  rw [exec_bldEnd_of_error hm he, err_eq_six_of_build hs.err hm he]
  rfl

end Sys2Proof.Machine

/-! SUPPORT. The statements about the merge engine (40_tree_builder.md R104 to R112). -/

namespace Sys2Proof.Machine

/-- Settles O22: membership, with the symbol of a leaf read from the leaf, and the ascending order. -/
theorem leafEnumerationAscending : Obligations.LeafEnumerationAscending := by
  unfold Obligations.LeafEnumerationAscending
  refine fun freq => ⟨enumerateLeaves_ascending freq, fun nd => mem_enumerateLeaves.trans ⟨?_, ?_⟩⟩
  · rintro ⟨b, hb, rfl⟩
    exact ⟨hb, rfl⟩
  · rintro ⟨hb, hnd⟩
    exact ⟨nd.sym, hb, hnd⟩

/-- Settles O24, from the invariant of the merge loop. -/
theorem mergeBuildsHuffmanTree : Obligations.MergeBuildsHuffmanTree := by
  unfold Obligations.MergeBuildsHuffmanTree
  rintro w freq hw _ ns r rfl htree
  obtain ⟨rfl, rfl⟩ := Prod.mk.inj htree
  exact buildTree_spec hw

/-! ### The shape of the loop, whether or not the sums fit -/

/-- Arena and collection together have 2n entries, and the last node of the arena is in the collection. -/
structure LoopShape (n : Nat) (ns : List Node) (q : List Key) : Prop where
  size        : q.length + ns.length = 2 * n
  lastPending : ∃ k ∈ q, k.2 + 1 = ns.length

theorem loopShape_initialKeys {leaves : List Node} (hne : leaves ≠ []) :
    LoopShape leaves.length leaves (initialKeys leaves) where
  size := by simp [initialKeys]; omega
  lastPending := by
    have hpos := List.length_pos_iff.2 hne
    have hlast : leaves.length - 1 < leaves.length := by omega
    exact ⟨(leaves[leaves.length - 1].freq, leaves.length - 1), List.mem_mapIdx.2 ⟨_, hlast, rfl⟩,
      Nat.sub_add_cancel hpos⟩

/-- The node a turn makes is the last of the arena, and its key goes into the collection (R105). -/
theorem LoopShape.turn {w : LenW} {n : Nat} {ns : List Node} {q q₁ q₂ : List Key} {i j : Key}
    (h : LoopShape n ns q) (h₁ : popMin q = some (i, q₁)) (h₂ : popMin q₁ = some (j, q₂)) :
    LoopShape n (mergePair w ns q₂ i j).1 (mergePair w ns q₂ i j).2 where
  size := by
    have hsize := h.size
    obtain ⟨hns, hq⟩ := mergePair_length (w := w) (ns := ns) h₁ h₂
    omega
  lastPending := ⟨((mergeNode w i j).freq, ns.length), by simp [mergePair], by simp [mergePair]⟩

theorem LoopShape.finished {n : Nat} {ns : List Node} {q : List Key} (h : LoopShape n ns q) (hq : q.length ≤ 1)
    (hn : n ≤ 256) : ns.length = 2 * n - 1 ∧ (rootOf q).toNat = 2 * n - 2 := by
  obtain ⟨k, hk, hlast⟩ := h.lastPending
  have hsize := h.size
  match q, hq with
  | [r], _ =>
    obtain rfl := List.mem_singleton.1 hk
    rw [List.length_singleton] at hsize
    have hmod : k.2 % 2 ^ 9 = k.2 := Nat.mod_eq_of_lt (by omega)
    rw [rootOf, BitVec.toNat_ofNat, hmod]
    omega

/-- Every turn adds one node and takes one from the collection, whatever the sums come to (R111). -/
theorem buildTree_size (w : LenW) {leaves : List Node} (hne : leaves ≠ []) (hn : leaves.length ≤ 256) :
    (buildTree w leaves).1.length = 2 * leaves.length - 1 ∧
      (buildTree w leaves).2.toNat = 2 * leaves.length - 2 :=
  (mergeLoop_keeps (P := LoopShape leaves.length) (fun _ _ _ _ _ _ h h₁ h₂ => h.turn h₁ h₂) leaves.length _ _
    (loopShape_initialKeys hne)).finished (mergeLoop_collection_small _ _ _ (by simp [initialKeys])) hn

/-- Settles O23: the size and the root index of the loop's end, and their values at 256 leaves. -/
theorem rootIndexAndTreeSize : Obligations.RootIndexAndTreeSize := by
  unfold Obligations.RootIndexAndTreeSize
  rintro w freq n rfl
  have hsize (h : 1 ≤ (enumerateLeaves freq).length) :=
    buildTree_size w (List.length_pos_iff.1 h) (enumerateLeaves_length_le freq)
  refine ⟨hsize, fun h256 => ?_⟩
  obtain ⟨hlen, hroot⟩ := hsize (by omega)
  rw [h256] at hlen hroot
  exact ⟨hlen, BitVec.eq_of_toNat_eq hroot⟩

/-! ### Builds of no symbol and of one -/

theorem enumerateLeaves_eq_nil {freq : Table Nat} (h : ∀ b, tableGet freq b = 0) : enumerateLeaves freq = [] := by
  refine List.eq_nil_iff_forall_not_mem.2 fun nd hnd => ?_
  obtain ⟨b, hb, -⟩ := mem_enumerateLeaves.1 hnd
  rw [h b] at hb
  omega

theorem enumerateLeaves_eq_singleton {freq : Table Nat} {b : Byte} (hb : 1 ≤ tableGet freq b)
    (h : ∀ c, c ≠ b → tableGet freq c = 0) : enumerateLeaves freq = [leafNode b (tableGet freq b)] := by
  have hnodup : (enumerateLeaves freq).Nodup := (enumerateLeaves_ascending freq).imp fun hlt he => by
    rw [he] at hlt
    exact BitVec.lt_irrefl _ hlt
  refine List.perm_singleton.1 ((List.perm_ext_iff_of_nodup hnodup (List.nodup_singleton _)).2 fun nd => ?_)
  rw [mem_enumerateLeaves, List.mem_singleton]
  constructor
  · rintro ⟨c, hc, rfl⟩
    by_cases hcb : c = b
    · rw [hcb]
    · rw [h c hcb] at hc
      omega
  · rintro rfl
    exact ⟨b, hb, rfl⟩

theorem buildAndPublish_of_no_symbol {s : State} (h : ∀ b, tableGet s.freq b = 0) (hlen : s.wlen = 0) :
    buildAndPublish s = publish 0 [] 0 0 noCodes s := by
  rw [buildAndPublish, enumerateLeaves_eq_nil h, hlen]
  rfl

/-- With one leaf the merge loop does not turn, and the leaf's code is the one bit 0 (R110). -/
theorem buildAndPublish_of_one_symbol {s : State} {b : Byte} (hb : 1 ≤ tableGet s.freq b)
    (h : ∀ c, c ≠ b → tableGet s.freq c = 0) :
    buildAndPublish s =
      publish 1 [leafNode b (tableGet s.freq b)] 0 s.wlen (tableSet noCodes b (codeOf [false])) s := by
  rw [buildAndPublish, enumerateLeaves_eq_singleton hb h]
  rfl

/-- Settles O25: with nothing counted the successful `BLD_END` publishes the empty tree. -/
theorem emptyBuildPublishesEmptyTree : Obligations.EmptyBuildPublishesEmptyTree := by
  unfold Obligations.EmptyBuildPublishesEmptyTree
  intro s hm he hfreq hlen
  rw [exec_bldEnd_of_ok hm he, buildAndPublish_of_no_symbol hfreq hlen]
  rfl

/-- Settles O26: with one symbol counted the successful `BLD_END` publishes its leaf and the code "0". -/
theorem singleSymbolBuildGivesCodeZero : Obligations.SingleSymbolBuildGivesCodeZero := by
  unfold Obligations.SingleSymbolBuildGivesCodeZero
  intro s b hm he hb hother
  rw [exec_bldEnd_of_ok hm he, buildAndPublish_of_one_symbol hb hother]
  rfl

end Sys2Proof.Machine

/-! SUPPORT. The build frame of a whole text (44_system.md R172): what `BLD_SYM` has counted at its end. -/

namespace Sys2Proof.Machine

/-- The frequency table with the symbols of a text counted on top of it. -/
def addText (text : List Byte) (t : Table Nat) : Table Nat :=
  Vector.ofFn fun k => tableGet t (BitVec.ofNat 8 k) + text.count (BitVec.ofNat 8 k)

@[simp] theorem tableGet_addText (text : List Byte) (t : Table Nat) (c : Byte) :
    tableGet (addText text t) c = tableGet t c + text.count c := by
  simp [addText, tableGet]

@[simp] theorem addText_nil (t : Table Nat) : addText [] t = t := table_ext fun c => by simp

theorem addText_cons (a : Byte) (text : List Byte) (t : Table Nat) :
    addText (a :: text) t = addText text (tableSet t a (tableGet t a + 1)) := by
  refine table_ext fun c => ?_
  rw [tableGet_addText, tableGet_addText]
  by_cases hc : c = a
  · rw [hc, tableGet_tableSet_self, List.count_cons_self]
    omega
  · rw [tableGet_tableSet_other _ _ hc, List.count_cons_of_ne (Ne.symm hc)]

theorem addText_perm {t u : List Byte} (h : t.Perm u) (f : Table Nat) : addText t f = addText u f :=
  table_ext fun c => by rw [tableGet_addText, tableGet_addText, h.count_eq]

/-- The state with a whole text counted. -/
def countText (text : List Byte) (s : State) : State :=
  { s with freq := addText text s.freq, wlen := s.wlen + text.length }

theorem countText_cons (a : Byte) (text : List Byte) (s : State) :
    countText (a :: text) s = countText text (addSymbol a s) := by
  simp [countText, addSymbol, addText_cons, Nat.add_assoc, Nat.add_comm]

theorem countText_perm {t u : List Byte} (h : t.Perm u) (s : State) : countText t s = countText u s := by
  rw [countText, countText, addText_perm h, h.length_eq]

/-- In a build frame with room for the text, the commands `BLD_SYM` of its symbols count it exactly (R102). -/
theorem execAll_bldSym_append {text : List Byte} {s : State} (hm : s.mode = .build) (he : s.err = 0)
    (hc : CountsOk s) (hfit : s.wlen + text.length ≤ s.lenW.lenMax) (is : List Instr) :
    execAll (text.map .bldSym ++ is) s = execAll is (countText text s) := by
  induction text generalizing s with
  | nil => simp [countText]
  | cons a text ih =>
    rw [List.length_cons] at hfit
    have hroom : countSymbol a s = addSymbol a s := countSymbol_of_room hc (by omega) a
    have hexec : exec (.bldSym a) s = .next (addSymbol a s) := by
      rw [exec_bldSym hm, unlessError_eq, if_pos he, hroom]
    have hwlen : (addSymbol a s).wlen + text.length ≤ s.lenW.lenMax := by
      show s.wlen + 1 + text.length ≤ _
      omega
    rw [countText_cons, ← ih (s := addSymbol a s) hm he (hroom ▸ countsOk_countSymbol hc a) hwlen]
    simp only [List.map_cons, List.cons_append, execAll, hexec]

/-- The state in which a build frame has counted a text that fits: the counts start from 0 (R101). -/
def afterCounting (text : List Byte) (s : State) : State := countText text (effect .bldBegin s)

/-- A build call on a text that fits is one `BLD_END` in the state that has counted it. -/
theorem execAll_build {s : State} {text : List Byte} (hm : s.mode = .idle) (hfit : text.length ≤ s.lenW.lenMax) :
    execAll (expandCall (.build text)) s = execAll [.bldEnd] (afterCounting text s) := by
  have hbegin : exec .bldBegin s = .next (effect .bldBegin s) :=
    exec_of_not_rejected (by simp [rejected, legalIn, hm])
  have hcounts : CountsOk (effect .bldBegin s) := ⟨(countsOk_resetWith s.lenW).sum, Nat.zero_le _⟩
  have hwlen : (effect .bldBegin s).wlen + text.length ≤ s.lenW.lenMax := (Nat.zero_add _).trans_le hfit
  simp only [expandCall, List.cons_append, execAll, hbegin]
  exact execAll_bldSym_append rfl rfl hcounts hwlen [.bldEnd]

/-- Settles O50: a permuted text counts the same, so the one `BLD_END` runs in the same state. -/
theorem buildIgnoresTextOrder : Obligations.BuildIgnoresTextOrder := by
  unfold Obligations.BuildIgnoresTextOrder
  intro s t u hm hperm hfit
  rw [execAll_build hm hfit, execAll_build hm (hperm.length_eq ▸ hfit), afterCounting, afterCounting,
    countText_perm hperm]

end Sys2Proof.Machine

/-! SUPPORT. The statements about the code table (41_code_table.md R120 to R127, 44_system.md R175): what the derivation
gives, how long a code is, and how the table is read. -/

namespace Sys2Proof.Machine

/-- Settles O27, from the invariant of the traversal. -/
theorem derivedCodesAreRootPaths : Obligations.DerivedCodesAreRootPaths := by
  unfold Obligations.DerivedCodesAreRootPaths
  exact fun _ _ _ => tableOk_deriveCodes

/-! ### The length of a code -/

theorem len_toNat_ne_zero {e : CodeEntry} (h : e.len ≠ 0) : e.len.toNat ≠ 0 :=
  fun h0 => h (BitVec.eq_of_toNat_eq h0)

theorem TableOk.exists_leaf_of_present {n : Nat} {ns : List Node} {root : NodeIdx} {c : Table CodeEntry}
    (h : TableOk n ns root c) {b : Byte} (hb : (tableGet c b).len ≠ 0) :
    ∃ (k : Nat) (hk : k < ns.length), k < n ∧ ns[k].sym = b := by
  by_contra hno
  refine hb ?_
  rw [h.absent b fun k hk hkn hsym => hno ⟨k, hk, hkn, hsym⟩]

/-- A present code is the bit 0 or a path from the root, which is node 2n - 2 of the arena (R125). -/
theorem TableOk.code_length {n : Nat} {ns : List Node} {root : NodeIdx} {c : Table CodeEntry}
    (h : TableOk n ns root c) (ht : TreeOk n ns root) {b : Byte} (hb : (tableGet c b).len ≠ 0) :
    (tableGet c b).len.toNat = (tableGet c b).bits.length ∧ (tableGet c b).bits.length ≤ max 1 (n - 1) := by
  obtain ⟨k, hk, hkn, rfl⟩ := h.exists_leaf_of_present hb
  obtain h1 | h2 : n = 1 ∨ 2 ≤ n := by omega
  · rw [h.single h1 k hk]
    exact ⟨rfl, le_max_left ..⟩
  · obtain ⟨hpath, hlen⟩ := h.path h2 k hk hkn
    have hle := ht.path_length_le (ht.root_lt (by omega)) hpath
    have hroot := ht.rootIndex
    exact ⟨hlen, by omega⟩

/-- Settles O28: the bound on the paths, and a length field that is not 0. -/
theorem codeLengthBounded : Obligations.CodeLengthBounded := by
  unfold Obligations.CodeLengthBounded
  intro s hs b hb
  obtain ⟨hlen, hle⟩ := hs.table.code_length hs.tree hb
  exact ⟨Nat.one_le_iff_ne_zero.2 (len_toNat_ne_zero hb), hlen ▸ hle, hlen.symm⟩

/-! ### RD_CODE -/

/-- The response words that answer `RD_CODE` for an entry (R126). -/
def codeWords (e : CodeEntry) : List Word := rspWord .len e.len :: (codeChars e).map (rspWord .bit)

theorem emitCode_eq (e : CodeEntry) (s : State) : emitCode e s = { s with rsp := s.rsp ++ codeWords e } := by
  simp [emitCode, emitAll, emit, codeWords]

theorem exec_rdCode {s : State} (hm : s.mode = .idle) (c : Byte) :
    exec (.rdCode c) s = .next { s with rsp := s.rsp ++ codeWords (tableGet s.code c) } := by
  rw [exec_of_not_rejected (by simp [rejected, legalIn, hm]), effect, emitCode_eq]

theorem rspWord_len (d : Byte) : rspWord .len d = 0x5000 + d.setWidth 16 := by
  apply BitVec.eq_of_toNat_eq
  have := d.isLt
  have hkind : (kindCode .len).toNat = 5 := rfl
  have hbase : (0x5000 : Word).toNat = 0x5000 := rfl
  rw [rspWord_toNat, hkind, BitVec.toNat_add, BitVec.toNat_setWidth, hbase]
  omega

theorem rspWord_bitChar (b : Bool) : rspWord .bit (bitChar b) = if b then 0x1031 else 0x1030 := by
  cases b <;> rfl

/-- The words of an entry as numbers (30_encoding.md R80, R84). -/
theorem codeWords_eq (e : CodeEntry) :
    codeWords e = (0x5000 + e.len.setWidth 16) ::
      (List.range e.len.toNat).map fun i => if e.bits.getD i false then 0x1031 else 0x1030 := by
  simp only [codeWords, codeChars, codeBits, rspWord_len, List.map_map, Function.comp_def, rspWord_bitChar]

theorem encode_rdCode_toNat (c : Byte) : (encode (.rdCode c)).toNat = 0xA000 + c.toNat := by
  rw [encode, Laws.EncodeWord.commandWord_toNat, Nat.add_right_cancel_iff]
  rfl

/-- Settles O20: out of place, and in `IDLE`. -/
theorem rdCodeReadsOneEntry : Obligations.RdCodeReadsOneEntry := by
  unfold Obligations.RdCodeReadsOneEntry
  refine fun c => ⟨encode_rdCode_toNat c, fun s => ⟨fun hm => ?_, fun hm => ?_⟩⟩
  · exact exec_of_not_legal (by simp [legalIn, hm])
  · rw [exec_rdCode hm, codeWords_eq, List.append_assoc, List.singleton_append]

/-! ### The snapshot -/

/-- The response words of the `RD_CODE` commands of a list of symbols. -/
def snapshotWords (t : Table CodeEntry) (bs : List Byte) : List Word := bs.flatMap fun b => codeWords (tableGet t b)

theorem snapshotWords_cons (t : Table CodeEntry) (b : Byte) (bs : List Byte) :
    snapshotWords t (b :: bs) = codeWords (tableGet t b) ++ snapshotWords t bs := List.flatMap_cons

theorem execAll_rdCode {s : State} (hm : s.mode = .idle) (bs : List Byte) :
    execAll (bs.map .rdCode) s = .next { s with rsp := s.rsp ++ snapshotWords s.code bs } := by
  induction bs generalizing s with
  | nil => simp [execAll, snapshotWords]
  | cons b bs ih =>
    have hrest := ih (s := { s with rsp := s.rsp ++ codeWords (tableGet s.code b) }) hm
    rw [List.append_assoc] at hrest
    rw [List.map_cons, execAll, exec_rdCode hm, snapshotWords_cons]
    exact hrest

/-- The reader takes the words of one entry off the stream, whatever follows them: the length says how many. -/
theorem readSnapshot_codeWords_append (b : Byte) (bs : List Byte) (e : CodeEntry) (ws : List Word) :
    readSnapshot (b :: bs) (codeWords e ++ ws) =
      if e.len.toNat = 0 then readSnapshot bs ws else (b, codeChars e) :: readSnapshot bs ws := by
  have hlen : ((codeChars e).map (rspWord .bit)).length = e.len.toNat := by simp
  have hdata : ((codeChars e).map (rspWord .bit)).map rspData = codeChars e := by simp [Function.comp_def]
  rw [codeWords, List.cons_append, readSnapshot, rspData_rspWord]
  split
  next h0 => rw [List.length_eq_zero_iff.1 (hlen.trans h0), List.nil_append]
  next => rw [List.take_left' hlen, List.drop_left' hlen, hdata]

theorem readSnapshot_snapshotWords (t : Table CodeEntry) (bs : List Byte) :
    readSnapshot bs (snapshotWords t bs) =
      (bs.filter fun b => (tableGet t b).len != 0).map fun b => (b, codeChars (tableGet t b)) := by
  induction bs with
  | nil => rfl
  | cons b bs ih =>
    rw [snapshotWords_cons, readSnapshot_codeWords_append, ih]
    by_cases hb : (tableGet t b).len = 0
    · simp [hb]
    · have hkept : ((tableGet t b).len != 0) = true := bne_iff_ne.2 hb
      rw [if_neg (len_toNat_ne_zero hb), List.filter_cons, if_pos hkept, List.map_cons]

/-- Settles O53: the commands only append words, and the reader takes these apart again. -/
theorem snapshotReturnsCodeTable : Obligations.SnapshotReturnsCodeTable := by
  unfold Obligations.SnapshotReturnsCodeTable
  intro s hm
  exact ⟨_, execAll_rdCode hm allSymbols, readSnapshot_snapshotWords s.code allSymbols⟩

end Sys2Proof.Machine

/-! SUPPORT. The three commands of the encoder (42_encoder.md R136 to R139): their exact next states in every mode. -/

namespace Sys2Proof.Machine

theorem exec_encBegin {s : State} (hm : s.mode = .idle) : exec .encBegin s = .next (openFrame .encode s) :=
  exec_of_not_rejected (by simp [rejected, legalIn, hm])

theorem exec_encSym {s : State} (hm : s.mode = .encode) (c : Byte) :
    exec (.encSym c) s = .next (unlessError (encodeSymbol c) s) :=
  exec_of_not_rejected (by simp [rejected, legalIn, hm])

theorem exec_encEnd {s : State} (hm : s.mode = .encode) : exec .encEnd s = .next (closeFrame s) :=
  exec_of_not_rejected (by simp [rejected, legalIn, hm])

/-- Settles O14: in `IDLE` the command opens its frame, elsewhere it takes F_SEQ. -/
theorem encBeginOpensFrame : Obligations.EncBeginOpensFrame := by
  unfold Obligations.EncBeginOpensFrame
  refine ⟨rfl, fun s => ⟨exec_encBegin, fun hm => ?_⟩⟩
  exact exec_of_not_legal (by simp [legalIn, hm])

/-! ### ENC_SYM -/

theorem encode_encSym_toNat (c : Byte) : (encode (.encSym c)).toNat = 0x5000 + c.toNat := by
  rw [encode, Laws.EncodeWord.commandWord_toNat, Nat.add_right_cancel_iff]
  rfl

theorem encodeSymbol_of_empty {s : State} (hn : s.nsym = 0) (c : Byte) : encodeSymbol c s = frameError .empty s := by
  rw [encodeSymbol, if_pos hn]

theorem encodeSymbol_of_absent {s : State} {c : Byte} (hn : s.nsym ≠ 0) (hc : (tableGet s.code c).len = 0) :
    encodeSymbol c s = frameError .noSym s := by
  rw [encodeSymbol, if_neg hn, if_pos hc]

theorem encodeSymbol_of_present {s : State} {c : Byte} (hn : s.nsym ≠ 0) (hc : (tableGet s.code c).len ≠ 0) :
    encodeSymbol c s = emitAll .bit (codeChars (tableGet s.code c)) s := by
  rw [encodeSymbol, if_neg hn, if_neg hc]

theorem exec_encSym_of_error {s : State} (hm : s.mode = .encode) (he : s.err ≠ 0) (c : Byte) :
    exec (.encSym c) s = .next s := by
  rw [exec_encSym hm, unlessError_eq, if_neg he]

theorem exec_encSym_of_ok {s : State} (hm : s.mode = .encode) (he : s.err = 0) (c : Byte) :
    exec (.encSym c) s = .next (encodeSymbol c s) := by
  rw [exec_encSym hm, unlessError_eq, if_pos he]

/-- The bit words of a code as numbers (30_encoding.md R80, R84). -/
theorem map_rspWord_codeChars (e : CodeEntry) :
    (codeChars e).map (rspWord .bit) =
      (List.range e.len.toNat).map fun i => if e.bits.getD i false then 0x1031 else 0x1030 := by
  simp only [codeChars, codeBits, List.map_map, Function.comp_def, rspWord_bitChar]

/-- Settles O15: out of place, with an error pending, with no tree, for an absent symbol and for a present one. -/
theorem encSymEmitsCode : Obligations.EncSymEmitsCode := by
  unfold Obligations.EncSymEmitsCode
  refine fun c => ⟨encode_encSym_toNat c, fun s => ⟨fun hm => ?_, fun hm he => exec_encSym_of_error hm he c,
    fun hm he hn => ?_, fun hm he hn hc => ?_, fun hm he hn hc => ?_⟩⟩
  · exact exec_of_not_legal (by simp [legalIn, hm])
  · rw [exec_encSym_of_ok hm he, encodeSymbol_of_empty hn]
    rfl
  · rw [exec_encSym_of_ok hm he, encodeSymbol_of_absent hn hc]
    rfl
  · rw [exec_encSym_of_ok hm he, encodeSymbol_of_present hn hc, emitAll, map_rspWord_codeChars]

/-! ### ENC_END -/

theorem exec_encEnd_words {s : State} (hm : s.mode = .encode) :
    exec .encEnd s = .next { s with mode := .idle, rsp := s.rsp ++ [0x3000 + s.err.setWidth 16] } := by
  rw [exec_encEnd hm, ← rspWord_status_err]
  rfl

/-- The errors of an encode frame are E_EMPTY and E_NOSYM (R138). -/
theorem err_of_encode {n : Nat} {e : BitVec 4} (h : e ∈ errAllowed .encode n) : e = 0 ∨ e = 1 ∨ e = 2 := by
  cases n with
  | zero =>
    have hor : e = 0 ∨ e = 1 := by simpa [errAllowed] using h
    exact hor.imp_right .inl
  | succ n =>
    have hor : e = 0 ∨ e = 2 := by simpa [errAllowed] using h
    exact hor.imp_right .inr

/-- Settles O16: out of place, in `ENCODE`, and the three words that the errors of a sound encode frame give. -/
theorem encEndReportsStatus : Obligations.EncEndReportsStatus := by
  unfold Obligations.EncEndReportsStatus
  refine ⟨rfl, fun s => ⟨fun hm => ?_, exec_encEnd_words, fun hm hs => ⟨_, ?_, exec_encEnd_words hm⟩⟩⟩
  · exact exec_of_not_legal (by simp [legalIn, hm])
  · obtain he | he | he := err_of_encode (hm ▸ hs.err) <;> rw [he] <;> decide

/-! ### The frame of the encoder's commands -/

/-- An executed command of the encoder writes `MODE` and `ERR` at most, and only extends the response stream. -/
theorem effect_frame_of_encoder {i : Instr} (hi : i = .encBegin ∨ (∃ c, i = .encSym c) ∨ i = .encEnd) (s : State) :
    ∃ m e ws, effect i s = { s with mode := m, err := e, rsp := s.rsp ++ ws } := by
  obtain rfl | ⟨c, rfl⟩ | rfl := hi
  · exact ⟨.encode, 0, [], by simp [effect, openFrame]⟩
  · refine unlessError_induction (P := fun t => ∃ m e ws, t = { s with mode := m, err := e, rsp := s.rsp ++ ws })
      (fun _ => ⟨s.mode, s.err, [], by simp⟩) fun _ => ?_
    obtain ⟨e, ws, hc⟩ := encodeSymbol_frame c s
    exact ⟨s.mode, e, ws, hc⟩
  · exact ⟨.idle, s.err, _, rfl⟩

/-- Settles O42: an executed command has its effect, within its frame; a rejected one takes F_SEQ. -/
theorem encoderFrame : Obligations.EncoderFrame := by
  unfold Obligations.EncoderFrame
  refine fun i s t hi h => ⟨fun hl => ?_, fun hl => ?_⟩
  · have hnoReg : ∀ r, i ≠ .rdReg r := by
      obtain rfl | ⟨c, rfl⟩ | rfl := hi <;> nofun
    obtain ⟨m, e, ws, heff⟩ := effect_frame_of_encoder hi s
    exact ⟨ws, by rw [exec_of_legal hl hnoReg h, heff]⟩
  · rw [exec_of_not_legal hl] at h
    cases h
    exact ⟨_, rfl⟩

end Sys2Proof.Machine

/-! SUPPORT. The encode frame of a whole text (42_encoder.md R140, 44_system.md R173): the bits it emits, the status it
ends with, and how its responses are read. -/

namespace Sys2Proof.Machine

/-! ### Reading a frame's responses -/

theorem dataOf_append (k : RspKind) (vs ws : List Word) : dataOf k (vs ++ ws) = dataOf k vs ++ dataOf k ws := by
  simp [dataOf]

theorem dataOf_map_rspWord_self (k : RspKind) (ds : List Byte) : dataOf k (ds.map (rspWord k)) = ds := by
  simp [dataOf, List.filter_map, Function.comp_def]

theorem dataOf_map_rspWord_other {j k : RspKind} (h : k ≠ j) (ds : List Byte) : dataOf j (ds.map (rspWord k)) = [] := by
  have hcode : (kindCode k == kindCode j) = false := beq_false_of_ne fun hc => h (kindCode_injective hc)
  simp [dataOf, List.filter_map, Function.comp_def, hcode]

/-- Data words, then one status word: the data are the result exactly when the status is 0. -/
theorem frameResult_data_status {k : RspKind} (hk : k ≠ .status) (ds : List Byte) (d : Byte) :
    frameResult k (ds.map (rspWord k) ++ [rspWord .status d]) = some (if d = 0 then .ok ds else .error d) := by
  have hstatus : dataOf .status (ds.map (rspWord k) ++ [rspWord .status d]) = [d] := by
    rw [dataOf_append, dataOf_map_rspWord_other hk, List.nil_append]
    exact dataOf_map_rspWord_self .status [d]
  have hdata : dataOf k (ds.map (rspWord k) ++ [rspWord .status d]) = ds := by
    rw [dataOf_append, dataOf_map_rspWord_self, show dataOf k [rspWord .status d] = [] from
      dataOf_map_rspWord_other hk.symm [d], List.append_nil]
  simp only [frameResult, hstatus, hdata]

theorem statusCode_setWidth_eq_zero_iff (c : Status) : (statusCode c).setWidth 8 = (0 : Byte) ↔ c = .ok := by
  cases c <;> decide

/-! ### What an encode frame computes

It depends on `NSYM` and on the code table only. -/

/-- The status of an encode frame: the first symbol of the text that has no code decides it. -/
def encodeStatus (n : NodeIdx) (t : Table CodeEntry) : List Byte → Status
  | [] => .ok
  | c :: cs => if n = 0 then .empty else if (tableGet t c).len = 0 then .noSym else encodeStatus n t cs

/-- The bit characters an encode frame emits: the codes up to the first symbol that has none. -/
def encodedChars (n : NodeIdx) (t : Table CodeEntry) (text : List Byte) : List Byte :=
  if n = 0 then []
  else (text.takeWhile fun c => (tableGet t c).len != 0).flatMap fun c => codeChars (tableGet t c)

section
variable {n : NodeIdx} {t : Table CodeEntry} {c : Byte} {s : State}

theorem encodeStatus_of_empty (hn : n = 0) (c : Byte) (cs : List Byte) : encodeStatus n t (c :: cs) = .empty :=
  if_pos hn

theorem encodeStatus_of_absent (hn : n ≠ 0) (hc : (tableGet t c).len = 0) (cs : List Byte) :
    encodeStatus n t (c :: cs) = .noSym := by
  rw [encodeStatus, if_neg hn, if_pos hc]

theorem encodeStatus_of_present (hn : n ≠ 0) (hc : (tableGet t c).len ≠ 0) (cs : List Byte) :
    encodeStatus n t (c :: cs) = encodeStatus n t cs := by
  rw [encodeStatus, if_neg hn, if_neg hc]

@[simp] theorem encodedChars_nil (n : NodeIdx) (t : Table CodeEntry) : encodedChars n t [] = [] := by
  simp [encodedChars]

theorem encodedChars_of_empty (hn : n = 0) (text : List Byte) : encodedChars n t text = [] := if_pos hn

theorem encodedChars_of_absent (hc : (tableGet t c).len = 0) (cs : List Byte) : encodedChars n t (c :: cs) = [] := by
  simp [encodedChars, hc]

theorem encodedChars_of_present (hn : n ≠ 0) (hc : (tableGet t c).len ≠ 0) (cs : List Byte) :
    encodedChars n t (c :: cs) = codeChars (tableGet t c) ++ encodedChars n t cs := by
  have hpos : ((tableGet t c).len != 0) = true := bne_iff_ne.2 hc
  simp only [encodedChars, if_neg hn, List.takeWhile_cons, hpos, if_true, List.flatMap_cons]

theorem encodeCall_of_empty (hn : s.nsym = 0) (c : Byte) (cs : List Byte) :
    encodeCall s (c :: cs) = .error .empty := by
  rw [encodeCall, if_neg (List.cons_ne_nil c cs), if_pos hn]

/-- With a published tree the empty text is no case of its own. -/
theorem encodeCall_of_tree (hn : s.nsym ≠ 0) (text : List Byte) :
    encodeCall s text = if text.any fun c => (tableGet s.code c).len == 0 then .error .noSym
      else .ok (text.flatMap fun c => codeChars (tableGet s.code c)) := by
  cases text with
  | nil => rfl
  | cons c cs => rw [encodeCall, if_neg (List.cons_ne_nil c cs), if_neg hn]

theorem encodeCall_of_absent (hn : s.nsym ≠ 0) (hc : (tableGet s.code c).len = 0) (cs : List Byte) :
    encodeCall s (c :: cs) = .error .noSym := by
  rw [encodeCall_of_tree hn, List.any_cons, beq_iff_eq.2 hc, Bool.true_or, if_pos rfl]

theorem encodeCall_of_present (hn : s.nsym ≠ 0) (hc : (tableGet s.code c).len ≠ 0) (cs : List Byte) :
    encodeCall s (c :: cs) = (encodeCall s cs).map (codeChars (tableGet s.code c) ++ ·) := by
  rw [encodeCall_of_tree hn, encodeCall_of_tree hn, List.any_cons, beq_false_of_ne hc, Bool.false_or,
    List.flatMap_cons]
  split <;> rfl

end

/-- The call-level function of R140 in terms of the frame's status and bits. -/
theorem encodeCall_eq (s : State) (text : List Byte) :
    encodeCall s text = if encodeStatus s.nsym s.code text = .ok then .ok (encodedChars s.nsym s.code text)
      else .error (encodeStatus s.nsym s.code text) := by
  induction text with
  | nil => rw [encodedChars_nil]; rfl
  | cons c cs ih =>
    by_cases hn : s.nsym = 0
    · rw [encodeCall_of_empty hn, encodeStatus_of_empty hn]
      rfl
    by_cases hc : (tableGet s.code c).len = 0
    · rw [encodeCall_of_absent hn hc, encodeStatus_of_absent hn hc]
      rfl
    · rw [encodeCall_of_present hn hc, encodeStatus_of_present hn hc, encodedChars_of_present hn hc, ih]
      split <;> rfl

/-! ### What an encode frame executes -/

/-- The state of an encode frame, opened without an error, that has taken in a text. -/
def afterEncoding (text : List Byte) (s : State) : State :=
  { s with
    err := statusCode (encodeStatus s.nsym s.code text)
    rsp := s.rsp ++ (encodedChars s.nsym s.code text).map (rspWord .bit) }

theorem afterEncoding_nil {s : State} (he : s.err = 0) : afterEncoding [] s = s := by
  simp [afterEncoding, encodeStatus, statusCode, ← he]

theorem afterEncoding_of_empty {s : State} (hn : s.nsym = 0) (c : Byte) (cs : List Byte) :
    afterEncoding (c :: cs) s = frameError .empty s := by
  simp [afterEncoding, encodeStatus_of_empty hn, encodedChars_of_empty hn, frameError]

theorem afterEncoding_of_absent {s : State} {c : Byte} (hn : s.nsym ≠ 0) (hc : (tableGet s.code c).len = 0)
    (cs : List Byte) : afterEncoding (c :: cs) s = frameError .noSym s := by
  simp [afterEncoding, encodeStatus_of_absent hn hc, encodedChars_of_absent hc, frameError]

theorem afterEncoding_of_present {s : State} {c : Byte} (hn : s.nsym ≠ 0) (hc : (tableGet s.code c).len ≠ 0)
    (cs : List Byte) :
    afterEncoding (c :: cs) s = afterEncoding cs (emitAll .bit (codeChars (tableGet s.code c)) s) := by
  simp [afterEncoding, encodeStatus_of_present hn hc, encodedChars_of_present hn hc, emitAll]

theorem execAll_encSym_append_of_error {s : State} (hm : s.mode = .encode) (he : s.err ≠ 0) (text : List Byte)
    (is : List Instr) : execAll (text.map .encSym ++ is) s = execAll is s := by
  induction text with
  | nil => rfl
  | cons c cs ih =>
    rw [← ih]
    simp only [List.map_cons, List.cons_append, execAll, exec_encSym_of_error hm he]

/-- Up to the first symbol without a code each `ENC_SYM` emits; that one records its error, and the rest are inert. -/
theorem execAll_encSym_append {s : State} (hm : s.mode = .encode) (he : s.err = 0) (text : List Byte)
    (is : List Instr) : execAll (text.map .encSym ++ is) s = execAll is (afterEncoding text s) := by
  induction text generalizing s with
  | nil => rw [afterEncoding_nil he]; rfl
  | cons c cs ih =>
    have hfirst : execAll ((c :: cs).map .encSym ++ is) s = execAll (cs.map .encSym ++ is) (encodeSymbol c s) := by
      simp only [List.map_cons, List.cons_append, execAll, exec_encSym_of_ok hm he]
    rw [hfirst]
    by_cases hn : s.nsym = 0
    · rw [encodeSymbol_of_empty hn, afterEncoding_of_empty hn]
      exact execAll_encSym_append_of_error (s := frameError .empty s) hm (by simp [statusCode]) cs is
    by_cases hc : (tableGet s.code c).len = 0
    · rw [encodeSymbol_of_absent hn hc, afterEncoding_of_absent hn hc]
      exact execAll_encSym_append_of_error (s := frameError .noSym s) hm (by simp [statusCode]) cs is
    · rw [encodeSymbol_of_present hn hc, afterEncoding_of_present hn hc]
      exact ih (s := emitAll .bit (codeChars (tableGet s.code c)) s) hm he

/-- The response words of an encode frame that emits these bits and ends with this status (R140). -/
def encodeFrameWords (bits : List Byte) (c : Status) : List Word :=
  bits.map (rspWord .bit) ++ [rspWord .status ((statusCode c).setWidth 8)]

theorem execAll_encode {s : State} (hm : s.mode = .idle) (text : List Byte) :
    execAll (expandCall (.encode text)) s = .next
      { s with
        err := statusCode (encodeStatus s.nsym s.code text)
        rsp := s.rsp ++ encodeFrameWords (encodedChars s.nsym s.code text) (encodeStatus s.nsym s.code text) } := by
  have hclose : execAll [.encEnd] (afterEncoding text (openFrame .encode s)) =
      .next (closeFrame (afterEncoding text (openFrame .encode s))) := by
    rw [execAll, exec_encEnd rfl]
    rfl
  simp only [expandCall, List.cons_append, execAll, exec_encBegin hm]
  rw [execAll_encSym_append rfl rfl, hclose, encodeFrameWords, ← List.append_assoc, hm]
  rfl

theorem frameResult_encodeFrameWords_ok (bits : List Byte) :
    frameResult .bit (encodeFrameWords bits .ok) = some (.ok bits) :=
  frameResult_data_status (k := .bit) nofun bits 0

theorem frameResult_encodeFrameWords_error {c : Status} (hc : c ≠ .ok) (bits : List Byte) :
    frameResult .bit (encodeFrameWords bits c) = some (.error ((statusCode c).setWidth 8)) := by
  rw [encodeFrameWords, frameResult_data_status (k := .bit) nofun, if_neg]
  exact fun h => hc ((statusCode_setWidth_eq_zero_iff c).1 h)

/-- Settles O51: the frame's status and bits are those of the call-level function, and its words carry both. -/
theorem encodeCallComputesR140 : Obligations.EncodeCallComputesR140 := by
  unfold Obligations.EncodeCallComputesR140
  intro s text hm
  refine ⟨_, _, execAll_encode hm text, ?_, fun out hout => ?_, fun c hc => ?_⟩
  · rw [encodeFrameWords, encodedChars, apply_ite (List.map (rspWord .bit)), List.map_nil, List.map_flatMap]
  · rw [encodeCall_eq] at hout
    split at hout
    next hok =>
      cases hout
      rw [hok]
      exact ⟨rfl, frameResult_encodeFrameWords_ok _⟩
    next => cases hout
  · rw [encodeCall_eq] at hc
    split at hc
    next => cases hc
    next hne =>
      cases hc
      exact ⟨rfl, frameResult_encodeFrameWords_error hne _⟩

end Sys2Proof.Machine

/-! SUPPORT. The three commands of the decoder (43_decoder.md R151 to R153, R160): their exact next states in every
mode, and their frame. -/

namespace Sys2Proof.Machine

theorem exec_decBegin {s : State} (hm : s.mode = .idle) :
    exec .decBegin s = .next { s with mode := .decode, err := 0, cur := s.root } :=
  exec_of_not_rejected (by simp [rejected, legalIn, hm])

theorem exec_decBit {s : State} (hm : s.mode = .decode) (c : Byte) :
    exec (.decBit c) s = .next (unlessError (decodeChar c) s) :=
  exec_of_not_rejected (by simp [rejected, legalIn, hm])

theorem exec_decEnd {s : State} (hm : s.mode = .decode) :
    exec .decEnd s = .next { closeFrame (checkTruncation s) with cur := s.root } :=
  exec_of_not_rejected (by simp [rejected, legalIn, hm])

/-- Settles O17: in `IDLE` the command opens its frame at the root, elsewhere it takes F_SEQ. -/
theorem decBeginOpensAtRoot : Obligations.DecBeginOpensAtRoot := by
  unfold Obligations.DecBeginOpensAtRoot
  refine ⟨rfl, fun s => ⟨exec_decBegin, fun hm => ?_⟩⟩
  exact exec_of_not_legal (by simp [legalIn, hm])

/-! ### DEC_BIT -/

theorem encode_decBit_toNat (c : Byte) : (encode (.decBit c)).toNat = 0x8000 + c.toNat := by
  rw [encode, Laws.EncodeWord.commandWord_toNat, Nat.add_right_cancel_iff]
  rfl

theorem rspWord_sym (d : Byte) : rspWord .sym d = 0x2000 + d.setWidth 16 := by
  apply BitVec.eq_of_toNat_eq
  have := d.isLt
  have hkind : (kindCode .sym).toNat = 2 := rfl
  have hbase : (0x2000 : Word).toNat = 0x2000 := rfl
  rw [rspWord_toNat, hkind, BitVec.toNat_add, BitVec.toNat_setWidth, hbase]
  omega

theorem charBit_eq_none_iff {c : Byte} : charBit c = none ↔ c ≠ 0x30 ∧ c ≠ 0x31 := by
  unfold charBit
  split
  · simp_all
  · split <;> simp_all

theorem exec_decBit_of_error {s : State} (hm : s.mode = .decode) (he : s.err ≠ 0) (c : Byte) :
    exec (.decBit c) s = .next s := by
  rw [exec_decBit hm, unlessError_eq, if_neg he]

theorem exec_decBit_of_ok {s : State} (hm : s.mode = .decode) (he : s.err = 0) (c : Byte) :
    exec (.decBit c) s = .next (decodeChar c s) := by
  rw [exec_decBit hm, unlessError_eq, if_pos he]

section
variable {s : State} {c : Byte} {b : Bool}

theorem decodeChar_of_empty (hn : s.nsym = 0) (c : Byte) : decodeChar c s = frameError .empty s := by
  rw [decodeChar, if_pos hn]

theorem decodeChar_of_badBit (hn : s.nsym ≠ 0) (hc : charBit c = none) :
    decodeChar c s = frameError .badBit s := by
  simp only [decodeChar, if_neg hn, hc]

theorem decodeChar_of_single (h1 : s.nsym = 1) (hc : charBit c = some b) : decodeChar c s = decodeSingle b s := by
  have hn : s.nsym ≠ 0 := by simp [h1]
  simp only [decodeChar, if_neg hn, hc, if_pos h1]

theorem decodeChar_of_walk (hn : s.nsym ≠ 0) (h1 : s.nsym ≠ 1) (hc : charBit c = some b) :
    decodeChar c s = decodeWalk b s := by
  simp only [decodeChar, if_neg hn, hc, if_neg h1]

theorem decodeWalk_of_leaf (hleaf : (nodeAt s.node (child (nodeAt s.node s.cur) b)).leaf = true) :
    decodeWalk b s =
      { s with
        cur := s.root
        rsp := s.rsp ++ [rspWord .sym (nodeAt s.node (child (nodeAt s.node s.cur) b)).sym] } :=
  if_pos hleaf

theorem decodeWalk_of_inner (hinner : (nodeAt s.node (child (nodeAt s.node s.cur) b)).leaf = false) :
    decodeWalk b s = { s with cur := child (nodeAt s.node s.cur) b } :=
  if_neg (by simp [hinner])

end

/-- The rows for two leaves or more are those left when the rows for none and for one do not apply (R154). -/
theorem two_le_nsym_iff {n : NodeIdx} : 2 ≤ n.toNat ↔ n ≠ 0 ∧ n ≠ 1 := by
  have h0 : (0 : NodeIdx).toNat = 0 := rfl
  have h1 : (1 : NodeIdx).toNat = 1 := rfl
  rw [ne_eq, ne_eq, ← BitVec.toNat_inj, ← BitVec.toNat_inj, h0, h1]
  omega

/-- Settles O18: out of place, with an error pending, and the rows of the transition table R154. -/
theorem decBitWalksTree : Obligations.DecBitWalksTree := by
  unfold Obligations.DecBitWalksTree
  refine fun c => ⟨encode_decBit_toNat c, fun s => ⟨fun hm => ?_, fun hm he => exec_decBit_of_error hm he c,
    fun hm he hn => ?_, fun hm he hn h30 h31 => ?_, fun hm he h1 hc => ?_, fun hm he h1 hc => ?_,
    fun hm he htwo hc k hk => ?_⟩⟩
  · exact exec_of_not_legal (by simp [legalIn, hm])
  · rw [exec_decBit_of_ok hm he, decodeChar_of_empty hn]
    rfl
  · rw [exec_decBit_of_ok hm he, decodeChar_of_badBit hn (charBit_eq_none_iff.2 ⟨h30, h31⟩)]
    rfl
  · rw [exec_decBit_of_ok hm he, decodeChar_of_single h1 (hc ▸ rfl : charBit c = some false), ← rspWord_sym]
    rfl
  · rw [exec_decBit_of_ok hm he, decodeChar_of_single h1 (hc ▸ rfl : charBit c = some true)]
    rfl
  · obtain ⟨hn, h1⟩ := two_le_nsym_iff.1 htwo
    obtain ⟨b, hb, rfl⟩ : ∃ b, charBit c = some b ∧ k = child (nodeAt s.node s.cur) b := by
      obtain rfl | rfl := hc
      · exact ⟨false, rfl, hk⟩
      · exact ⟨true, rfl, hk⟩
    rw [exec_decBit_of_ok hm he, decodeChar_of_walk hn h1 hb, ← rspWord_sym]
    exact ⟨fun hleaf => congrArg _ (decodeWalk_of_leaf hleaf), fun hinner => congrArg _ (decodeWalk_of_inner hinner)⟩

/-! ### DEC_END -/

/-- `DEC_END` at an internal node with no error pending: E_TRUNC. -/
theorem exec_decEnd_of_trunc {s : State} (hm : s.mode = .decode) (he : s.err = 0) (hc : s.cur ≠ s.root) :
    exec .decEnd s = .next { s with err := 4, cur := s.root, mode := .idle, rsp := s.rsp ++ [0x3004] } := by
  have hword : rspWord .status ((statusCode .trunc).setWidth 8) = 0x3004 := by decide
  rw [exec_decEnd hm, checkTruncation, if_pos ⟨he, hc⟩, ← hword]
  rfl

/-- `DEC_END` with an error pending or at the root: `ERR` is reported as it stands. -/
theorem exec_decEnd_of_settled {s : State} (hm : s.mode = .decode) (h : s.err ≠ 0 ∨ s.cur = s.root) :
    exec .decEnd s = .next
      { s with cur := s.root, mode := .idle, rsp := s.rsp ++ [0x3000 + s.err.setWidth 16] } := by
  have hno : ¬ (s.err = 0 ∧ s.cur ≠ s.root) := fun ⟨he, hc⟩ => h.elim (· he) hc
  rw [exec_decEnd hm, checkTruncation, if_neg hno, ← rspWord_status_err]
  rfl

/-- The errors pending in a decode frame are E_EMPTY, E_BADBIT and E_NOCODE (R159). -/
theorem err_of_decode {n : Nat} {e : BitVec 4} (h : e ∈ errAllowed .decode n) : e = 0 ∨ e = 1 ∨ e = 3 ∨ e = 5 := by
  match n with
  | 0 =>
    have hor : e = 0 ∨ e = 1 := by simpa [errAllowed] using h
    tauto
  | 1 =>
    have hor : e = 0 ∨ e = 3 ∨ e = 5 := by simpa [errAllowed] using h
    tauto
  | n + 2 =>
    have hor : e = 0 ∨ e = 3 := by simpa [errAllowed] using h
    tauto

/-- Settles O19: out of place, truncated, and otherwise; the words are those that the errors of a sound decode frame
give, and under a tree of at most one leaf the cursor is at the root. -/
theorem decEndChecksTruncation : Obligations.DecEndChecksTruncation := by
  unfold Obligations.DecEndChecksTruncation
  refine ⟨rfl, fun s => ⟨fun hm => ?_, exec_decEnd_of_trunc, exec_decEnd_of_settled, fun hm hs => ?_⟩⟩
  · exact exec_of_not_legal (by simp [legalIn, hm])
  · by_cases htrunc : s.err = 0 ∧ s.cur ≠ s.root
    · obtain ⟨he, hc⟩ := htrunc
      exact ⟨0x3004, _, by decide, exec_decEnd_of_trunc hm he hc, rfl, fun hle => absurd (hs.cursor.small hle) hc⟩
    · refine ⟨_, _, ?_, exec_decEnd_of_settled hm (by tauto), rfl, fun _ => ?_⟩ <;>
        obtain he | he | he | he := err_of_decode (hm ▸ hs.err) <;> rw [he] <;> decide

/-! ### The frame of the decoder's commands -/

/-- An executed command of the decoder writes `MODE`, `ERR` and `CUR` at most, and only extends the response stream. -/
theorem effect_frame_of_decoder {i : Instr} (hi : i = .decBegin ∨ (∃ c, i = .decBit c) ∨ i = .decEnd) (s : State) :
    ∃ m e k ws, effect i s = { s with mode := m, err := e, cur := k, rsp := s.rsp ++ ws } := by
  obtain rfl | ⟨c, rfl⟩ | rfl := hi
  · exact ⟨.decode, 0, s.root, [], by simp [effect, openFrame]⟩
  · refine unlessError_induction
      (P := fun t => ∃ m e k ws, t = { s with mode := m, err := e, cur := k, rsp := s.rsp ++ ws })
      (fun _ => ⟨s.mode, s.err, s.cur, [], by simp⟩) fun _ => ?_
    obtain ⟨e, k, ws, hc⟩ := decodeChar_frame c s
    exact ⟨s.mode, e, k, ws, hc⟩
  · obtain ⟨e, hc⟩ := checkTruncation_frame s
    exact ⟨.idle, e, s.root, _, by simp only [effect, hc]; rfl⟩

theorem effect_decEnd_closes (s : State) :
    (effect .decEnd s).cur = (effect .decEnd s).root ∧ (effect .decEnd s).mode = .idle := by
  obtain ⟨e, hc⟩ := checkTruncation_frame s
  simp only [effect, hc]
  exact ⟨rfl, rfl⟩

/-- Settles O43: an executed command has its effect, within its frame; a rejected one takes F_SEQ. -/
theorem decoderFrame : Obligations.DecoderFrame := by
  unfold Obligations.DecoderFrame
  refine fun i s t hi h => ⟨fun hl => ?_, fun hl => ?_⟩
  · have hnoReg : ∀ r, i ≠ .rdReg r := by
      obtain rfl | ⟨c, rfl⟩ | rfl := hi <;> nofun
    obtain rfl := exec_of_legal hl hnoReg h
    obtain ⟨m, e, k, ws, heff⟩ := effect_frame_of_decoder hi s
    exact ⟨⟨ws, by rw [heff]⟩, fun hend => hend ▸ effect_decEnd_closes s⟩
  · rw [exec_of_not_legal hl] at h
    cases h
    exact ⟨_, rfl⟩

end Sys2Proof.Machine

/-! SUPPORT. The decode call (43_decoder.md R157, R159, 44_system.md R174): what one character of the scan does, the
frame that carries the scan out, and the errors it can end with. -/

namespace Sys2Proof.Machine

/-! ### Results carried through the scan -/

theorem map_eq_ok_iff {f : List Byte → List Byte} {x : Except Status (List Byte)} {y : List Byte} :
    x.map f = .ok y ↔ ∃ z, x = .ok z ∧ f z = y := by
  cases x <;> simp [Except.map]

theorem map_eq_error_iff {f : List Byte → List Byte} {x : Except Status (List Byte)} {c : Status} :
    x.map f = .error c ↔ x = .error c := by
  cases x <;> simp [Except.map]

/-! ### The scan, one character at a time (R154) -/

section
variable {s : State} {k : NodeIdx} {c : Byte} {b : Bool}

theorem decodeScan_nil_root : decodeScan s s.root [] = .ok [] := if_pos rfl

theorem decodeScan_nil_inner (hk : k ≠ s.root) : decodeScan s k [] = .error .trunc := if_neg hk

theorem decodeScan_of_badBit (hc : charBit c = none) (cs : List Byte) :
    decodeScan s k (c :: cs) = .error .badBit := by
  simp only [decodeScan, hc]

theorem decodeScan_of_noCode (h1 : s.nsym = 1) (hc : charBit c = some true) (cs : List Byte) :
    decodeScan s k (c :: cs) = .error .noCode := by
  simp only [decodeScan, hc, if_pos h1, if_true]

theorem decodeScan_of_single (h1 : s.nsym = 1) (hc : charBit c = some false) (cs : List Byte) :
    decodeScan s k (c :: cs) = (decodeScan s k cs).map ((nodeAt s.node s.root).sym :: ·) := by
  simp only [decodeScan, hc, if_pos h1, Bool.false_eq_true, if_false]

theorem decodeScan_of_leaf (h1 : s.nsym ≠ 1) (hc : charBit c = some b)
    (hleaf : (nodeAt s.node (child (nodeAt s.node k) b)).leaf = true) (cs : List Byte) :
    decodeScan s k (c :: cs) =
      (decodeScan s s.root cs).map ((nodeAt s.node (child (nodeAt s.node k) b)).sym :: ·) := by
  simp only [decodeScan, hc, if_neg h1, if_pos hleaf]

theorem decodeScan_of_inner (h1 : s.nsym ≠ 1) (hc : charBit c = some b)
    (hinner : (nodeAt s.node (child (nodeAt s.node k) b)).leaf = false) (cs : List Byte) :
    decodeScan s k (c :: cs) = decodeScan s (child (nodeAt s.node k) b) cs := by
  simp only [decodeScan, hc, if_neg h1, hinner, Bool.false_eq_true, if_false]

end

theorem decodeCall_of_empty {s : State} (hn : s.nsym = 0) (c : Byte) (cs : List Byte) :
    decodeCall s (c :: cs) = .error .empty := by
  rw [decodeCall, if_neg (List.cons_ne_nil c cs), if_pos hn]

/-- With a published tree the empty bitstream is no case of its own. -/
theorem decodeCall_of_tree {s : State} (hn : s.nsym ≠ 0) (bits : List Byte) :
    decodeCall s bits = decodeScan s s.root bits := by
  cases bits with
  | nil => exact decodeScan_nil_root.symm
  | cons c cs => rw [decodeCall, if_neg (List.cons_ne_nil c cs), if_neg hn]

/-! ### What a decode frame executes -/

theorem execAll_cons_of_next {i : Instr} {s t : State} (h : exec i s = .next t) (is : List Instr) :
    execAll (i :: is) s = execAll is t := by
  simp only [execAll, h]

theorem execAll_decBit_append_of_error {s : State} (hm : s.mode = .decode) (he : s.err ≠ 0) (bits : List Byte)
    (is : List Instr) : execAll (bits.map .decBit ++ is) s = execAll is s := by
  induction bits with
  | nil => rfl
  | cons c cs ih =>
    rw [← ih]
    exact execAll_cons_of_next (exec_decBit_of_error hm he c) _

theorem execAll_decEnd_of_settled {s : State} (hm : s.mode = .decode) (h : s.err ≠ 0 ∨ s.cur = s.root) :
    execAll [.decEnd] s = .next
      { s with cur := s.root, mode := .idle, rsp := s.rsp ++ [rspWord .status (s.err.setWidth 8)] } := by
  rw [execAll_cons_of_next (exec_decEnd_of_settled hm h), rspWord_status_err]
  rfl

/-- The response words of a decode frame that emits these symbols and ends with this status (R157). -/
def decodeFrameWords (syms : List Byte) (c : Status) : List Word :=
  syms.map (rspWord .sym) ++ [rspWord .status ((statusCode c).setWidth 8)]

/-- The result of a decode frame that emits these symbols and ends with this status: the symbols count under status 0
only (70_reset_and_hazards.md R227). -/
def frameOutcome (syms : List Byte) (c : Status) : Except Status (List Byte) :=
  if c = .ok then .ok syms else .error c

theorem frameOutcome_ok (syms : List Byte) : frameOutcome syms .ok = .ok syms := if_pos rfl

theorem frameOutcome_error {c : Status} (hc : c ≠ .ok) (syms : List Byte) : frameOutcome syms c = .error c :=
  if_neg hc

theorem frameOutcome_map (d : Byte) (syms : List Byte) (c : Status) :
    (frameOutcome syms c).map (d :: ·) = frameOutcome (d :: syms) c := by
  unfold frameOutcome
  split <;> rfl

theorem statusCode_ne_zero {c : Status} (hc : c ≠ .ok) : statusCode c ≠ 0 := by
  cases c with
  | ok => exact absurd rfl hc
  | _ => simp [statusCode]

/-- A decode frame is open without an error, its cursor at `k`, the responses so far `r`. -/
def inDecode (s : State) (k : NodeIdx) (r : List Word) : State :=
  { s with mode := .decode, err := 0, cur := k, rsp := r }

/-- The decode frame has been closed: it emitted these symbols after `r` and ended with this status. -/
def decodeClosed (s : State) (r : List Word) (syms : List Byte) (c : Status) : State :=
  { s with mode := .idle, err := statusCode c, cur := s.root, rsp := r ++ decodeFrameWords syms c }

/-- From cursor `k` and the responses `r`, the characters `bits` and the closing `DEC_END` have the result `x`. -/
def FrameAnswers (s : State) (k : NodeIdx) (r : List Word) (bits : List Byte) (x : Except Status (List Byte)) : Prop :=
  ∃ syms c, x = frameOutcome syms c ∧
    execAll (bits.map .decBit ++ [.decEnd]) (inDecode s k r) = .next (decodeClosed s r syms c)

section
variable {s : State} {k k' : NodeIdx} {r : List Word} {c d : Byte} {cs : List Byte} {x : Except Status (List Byte)}

theorem execAll_decEnd_of_error {e : Status} (he : e ≠ .ok) :
    execAll [.decEnd] (frameError e (inDecode s k r)) = .next (decodeClosed s r [] e) :=
  execAll_decEnd_of_settled (s := frameError e (inDecode s k r)) rfl (.inl (statusCode_ne_zero he))

theorem frameAnswers_nil : FrameAnswers s k r [] (decodeScan s k []) := by
  by_cases hk : k = s.root
  · refine ⟨[], .ok, if_pos hk, ?_⟩
    exact execAll_decEnd_of_settled (s := inDecode s k r) rfl (.inr hk)
  · refine ⟨[], .trunc, if_neg hk, ?_⟩
    exact execAll_cons_of_next (exec_decEnd_of_trunc (s := inDecode s k r) rfl rfl hk) []

/-- The first error decides the frame: the characters after it are not examined. -/
theorem frameAnswers_error {e : Status} (he : e ≠ .ok)
    (h : decodeChar c (inDecode s k r) = frameError e (inDecode s k r)) : FrameAnswers s k r (c :: cs) (.error e) := by
  have hexec := (exec_decBit_of_ok (s := inDecode s k r) rfl rfl c).trans (congrArg _ h)
  refine ⟨[], e, (frameOutcome_error he _).symm, (execAll_cons_of_next hexec _).trans ?_⟩
  exact (execAll_decBit_append_of_error rfl (statusCode_ne_zero he) cs _).trans (execAll_decEnd_of_error he)

theorem frameAnswers_emit (h : decodeChar c (inDecode s k r) = inDecode s k' (r ++ [rspWord .sym d]))
    (hrest : FrameAnswers s k' (r ++ [rspWord .sym d]) cs x) : FrameAnswers s k r (c :: cs) (x.map (d :: ·)) := by
  have hexec := (exec_decBit_of_ok (s := inDecode s k r) rfl rfl c).trans (congrArg _ h)
  obtain ⟨syms, e, rfl, hrun⟩ := hrest
  refine ⟨d :: syms, e, frameOutcome_map d syms e, (execAll_cons_of_next hexec _).trans (hrun.trans ?_)⟩
  simp [decodeClosed, decodeFrameWords]

theorem frameAnswers_walk (h : decodeChar c (inDecode s k r) = inDecode s k' r) (hrest : FrameAnswers s k' r cs x) :
    FrameAnswers s k r (c :: cs) x := by
  have hexec := (exec_decBit_of_ok (s := inDecode s k r) rfl rfl c).trans (congrArg _ h)
  obtain ⟨syms, e, hx, hrun⟩ := hrest
  exact ⟨syms, e, hx, (execAll_cons_of_next hexec _).trans hrun⟩

end

/-- The frame carries out the scan, character by character. -/
theorem frameAnswers_decodeScan {s : State} (hn : s.nsym ≠ 0) (bits : List Byte) (k : NodeIdx) (r : List Word) :
    FrameAnswers s k r bits (decodeScan s k bits) := by
  induction bits generalizing k r with
  | nil => exact frameAnswers_nil
  | cons c cs ih =>
    cases hc : charBit c with
    | none =>
      rw [decodeScan_of_badBit hc]
      exact frameAnswers_error nofun (decodeChar_of_badBit hn hc)
    | some b =>
      by_cases h1 : s.nsym = 1
      · have hchar := decodeChar_of_single (s := inDecode s k r) h1 hc
        cases b with
        | true =>
          rw [decodeScan_of_noCode h1 hc]
          exact frameAnswers_error nofun hchar
        | false =>
          rw [decodeScan_of_single h1 hc]
          exact frameAnswers_emit hchar (ih k _)
      · have hchar := decodeChar_of_walk (s := inDecode s k r) hn h1 hc
        cases hleaf : (nodeAt s.node (child (nodeAt s.node k) b)).leaf with
        | true =>
          rw [decodeScan_of_leaf h1 hc hleaf]
          exact frameAnswers_emit (hchar.trans (decodeWalk_of_leaf hleaf)) (ih s.root _)
        | false =>
          rw [decodeScan_of_inner h1 hc hleaf]
          exact frameAnswers_walk (hchar.trans (decodeWalk_of_inner hleaf)) (ih _ r)

theorem frameAnswers_decodeCall (s : State) (r : List Word) (bits : List Byte) :
    FrameAnswers s s.root r bits (decodeCall s bits) := by
  by_cases hn : s.nsym = 0
  · cases bits with
    | nil =>
      have hnil : decodeCall s [] = decodeScan s s.root [] := decodeScan_nil_root.symm
      exact hnil ▸ frameAnswers_nil
    | cons c cs =>
      rw [decodeCall_of_empty hn]
      exact frameAnswers_error nofun (decodeChar_of_empty (s := inDecode s s.root r) hn c)
  · rw [decodeCall_of_tree hn]
    exact frameAnswers_decodeScan hn bits s.root r

/-- A decode frame from `IDLE` answers the call-level function of R157. -/
theorem execAll_decode {s : State} (hm : s.mode = .idle) (bits : List Byte) :
    ∃ syms c, decodeCall s bits = frameOutcome syms c ∧
      execAll (expandCall (.decode bits)) s = .next
        { s with err := statusCode c, cur := s.root, rsp := s.rsp ++ decodeFrameWords syms c } := by
  obtain ⟨syms, c, hcall, hrun⟩ := frameAnswers_decodeCall s s.rsp bits
  refine ⟨syms, c, hcall, (execAll_cons_of_next (exec_decBegin hm) _).trans (hrun.trans ?_)⟩
  rw [decodeClosed, hm]

theorem frameResult_decodeFrameWords_ok (syms : List Byte) :
    frameResult .sym (decodeFrameWords syms .ok) = some (.ok syms) :=
  frameResult_data_status (k := .sym) nofun syms 0

theorem frameResult_decodeFrameWords_error {c : Status} (hc : c ≠ .ok) (syms : List Byte) :
    frameResult .sym (decodeFrameWords syms c) = some (.error ((statusCode c).setWidth 8)) := by
  rw [decodeFrameWords, frameResult_data_status (k := .sym) nofun, if_neg]
  exact fun h => hc ((statusCode_setWidth_eq_zero_iff c).1 h)

/-- Settles O52: the frame's symbols and status are the result of the call-level function, and its words carry both. -/
theorem decodeCallComputesR157 : Obligations.DecodeCallComputesR157 := by
  unfold Obligations.DecodeCallComputesR157
  intro s bits hm
  obtain ⟨syms, c, hcall, hrun⟩ := execAll_decode hm bits
  refine ⟨_, _, hrun, ?_⟩
  rw [hcall]
  by_cases hc : c = .ok
  · subst hc
    rw [frameOutcome_ok]
    refine ⟨fun out hout => ?_, nofun⟩
    cases hout
    exact ⟨rfl, rfl, frameResult_decodeFrameWords_ok syms⟩
  · rw [frameOutcome_error hc]
    refine ⟨nofun, fun a ha => ?_⟩
    cases ha
    exact ⟨rfl, frameResult_decodeFrameWords_error hc syms⟩

/-! ### Which errors a call raises (R159) -/

theorem decodeScan_error {s : State} {k : NodeIdx} {bits : List Byte} {c : Status}
    (h : decodeScan s k bits = .error c) : c = .badBit ∨ c = .trunc ∨ (s.nsym = 1 ∧ c = .noCode) := by
  induction bits generalizing k with
  | nil =>
    by_cases hk : k = s.root
    · rw [hk, decodeScan_nil_root] at h
      cases h
    · rw [decodeScan_nil_inner hk] at h
      cases h
      exact .inr (.inl rfl)
  | cons a as ih =>
    cases hb : charBit a with
    | none =>
      rw [decodeScan_of_badBit hb] at h
      cases h
      exact .inl rfl
    | some b =>
      by_cases h1 : s.nsym = 1
      · cases b with
        | true =>
          rw [decodeScan_of_noCode h1 hb] at h
          cases h
          exact .inr (.inr ⟨h1, rfl⟩)
        | false =>
          rw [decodeScan_of_single h1 hb, map_eq_error_iff] at h
          exact ih h
      · cases hleaf : (nodeAt s.node (child (nodeAt s.node k) b)).leaf with
        | true =>
          rw [decodeScan_of_leaf h1 hb hleaf, map_eq_error_iff] at h
          exact ih h
        | false =>
          rw [decodeScan_of_inner h1 hb hleaf] at h
          exact ih h

/-- Under a tree whose every bit completes a code the cursor never leaves the root, so no input is truncated. -/
theorem decodeScan_ne_trunc {s : State}
    (hshort : s.nsym ≠ 1 → ∀ b, (nodeAt s.node (child (nodeAt s.node s.root) b)).leaf = true) (bits : List Byte) :
    decodeScan s s.root bits ≠ .error .trunc := by
  induction bits with
  | nil =>
    rw [decodeScan_nil_root]
    nofun
  | cons a as ih =>
    cases hb : charBit a with
    | none =>
      rw [decodeScan_of_badBit hb]
      nofun
    | some b =>
      by_cases h1 : s.nsym = 1
      · cases b with
        | true =>
          rw [decodeScan_of_noCode h1 hb]
          nofun
        | false => rwa [decodeScan_of_single h1 hb, ne_eq, map_eq_error_iff]
      · rwa [decodeScan_of_leaf h1 hb (hshort h1 b), ne_eq, map_eq_error_iff]

/-- Under two leaves the root is node 2, and its children are the leaves 0 and 1. -/
theorem TreeOk.child_root_leaf {ns : List Node} {root : NodeIdx} (h : TreeOk 2 ns root) (b : Bool) :
    (nodeAt ns (child (nodeAt ns root) b)).leaf = true := by
  have hroot := h.root_lt two_ne_zero
  have hlt := h.child_lt hroot (h.root_inner le_rfl) b
  rw [h.leaf_iff (hlt.trans hroot)]
  have hidx : root.toNat = 2 := h.rootIndex
  rwa [hidx] at hlt

/-- Settles O56: the errors of the scan, and the trees under which no input is truncated. -/
theorem decodeErrorsByTree : Obligations.DecodeErrorsByTree := by
  unfold Obligations.DecodeErrorsByTree
  intro s bits c h
  by_cases hn : s.nsym = 0
  · have hc : c = .empty := by
      cases bits with
      | nil => cases h
      | cons a as =>
        rw [decodeCall_of_empty hn] at h
        cases h
        rfl
    simp [hn, hc]
  rw [decodeCall_of_tree hn] at h
  have herr := decodeScan_error h
  refine ⟨fun h0 => absurd h0 hn, fun h1 => ?_, fun htwo => ?_, fun hs htwo => ?_⟩
  · have hne : c ≠ .trunc := fun hc => decodeScan_ne_trunc (fun hne => absurd h1 hne) bits (hc ▸ h)
    tauto
  · have hne := (two_le_nsym_iff.1 htwo).2
    tauto
  · rintro rfl
    have htree : TreeOk 2 s.node s.root := by simpa [htwo] using hs.tree
    exact decodeScan_ne_trunc (fun _ => htree.child_root_leaf) bits h

end Sys2Proof.Machine

/-! SUPPORT. Decoding inverts encoding (43_decoder.md R158, 44_system.md R176): a node of the published tree has one
path from the root, so a bitstream splits into codes in one way. -/

namespace Sys2Proof.Machine

/-! ### The path to a node -/

/-- The last step of a path leaves an internal node. -/
theorem followPath_snoc_inv {ns : List Node} {r x : NodeIdx} {p : List Bool} {b : Bool}
    (h : followPath ns r (p ++ [b]) = some x) :
    ∃ k, followPath ns r p = some k ∧ (nodeAt ns k).leaf = false ∧ child (nodeAt ns k) b = x := by
  induction p generalizing r with
  | nil =>
    cases hr : (nodeAt ns r).leaf with
    | true => simp [followPath, hr] at h
    | false => exact ⟨r, rfl, hr, by simpa [followPath, hr] using h⟩
  | cons c p ih =>
    cases hr : (nodeAt ns r).leaf with
    | true => simp [followPath, hr] at h
    | false =>
      simp only [followPath, hr, List.cons_append, Bool.false_eq_true, if_false] at h ⊢
      exact ih h

theorem isParent_child {ns : List Node} {k : NodeIdx} (hinner : (nodeAt ns k).leaf = false) (b : Bool) :
    IsParent ns k (child (nodeAt ns k) b) := by
  cases b
  · exact ⟨hinner, .inl rfl⟩
  · exact ⟨hinner, .inr rfl⟩

section Tree

variable {n : Nat} {ns : List Node} {root : NodeIdx}

theorem TreeOk.child_injective (h : TreeOk n ns root) {k : NodeIdx} (hk : k.toNat < ns.length)
    (hinner : (nodeAt ns k).leaf = false) : Function.Injective (child (nodeAt ns k)) := by
  rw [nodeAt_of_lt hk] at hinner ⊢
  obtain ⟨-, hne, -⟩ := h.innerNode k.toNat hk hinner
  intro a b hab
  cases a <;> cases b
  · rfl
  · exact absurd hab hne
  · exact absurd hab hne.symm
  · rfl

/-- A path from the root stays within the arena. -/
theorem TreeOk.followPath_lt (h : TreeOk n ns root) (hn : n ≠ 0) {p : List Bool} {x : NodeIdx}
    (hp : followPath ns root p = some x) : x.toNat < ns.length := by
  induction p using List.reverseRecOn generalizing x with
  | nil =>
    obtain rfl : root = x := by simpa [followPath] using hp
    exact h.root_lt hn
  | append_singleton p b ih =>
    obtain ⟨k, hk, hinner, rfl⟩ := followPath_snoc_inv hp
    exact (h.child_lt (ih hk) hinner b).trans (ih hk)

/-- No path but the empty one leads from the root to itself. -/
theorem TreeOk.path_to_root (h : TreeOk n ns root) (hn : n ≠ 0) {p : List Bool}
    (hp : followPath ns root p = some root) : p = [] := by
  induction p using List.reverseRecOn with
  | nil => rfl
  | append_singleton p b _ =>
    obtain ⟨k, hk, hinner, hc⟩ := followPath_snoc_inv hp
    exact absurd (hc ▸ isParent_child hinner b) (h.root_no_parent hn (h.followPath_lt hn hk))

/-- Every node but the root has one parent and is one of its two children, so the path to it is unique. -/
theorem TreeOk.path_unique (h : TreeOk n ns root) (hn : n ≠ 0) {p q : List Bool} {x : NodeIdx}
    (hp : followPath ns root p = some x) (hq : followPath ns root q = some x) : p = q := by
  induction p using List.reverseRecOn generalizing q x with
  | nil =>
    obtain rfl : root = x := by simpa [followPath] using hp
    exact (h.path_to_root hn hq).symm
  | append_singleton p b ih =>
    induction q using List.reverseRecOn with
    | nil =>
      obtain rfl : root = x := by simpa [followPath] using hq
      exact h.path_to_root hn hp
    | append_singleton q c _ =>
      have hx := h.followPath_lt hn hp
      obtain ⟨j, hj, hjinner, hjx⟩ := followPath_snoc_inv hp
      obtain ⟨k, hk, hkinner, hkx⟩ := followPath_snoc_inv hq
      have hjlt := h.followPath_lt hn hj
      obtain rfl : j = k := h.parent_unique hjlt (h.followPath_lt hn hk) hx
        (hjx ▸ isParent_child hjinner b) (hkx ▸ isParent_child hkinner c)
      rw [ih hj hk, h.child_injective hjlt hjinner (hjx.trans hkx.symm)]

/-! ### The code of a leaf's symbol -/

/-- The code of the symbol of leaf `x` is the path to `x`, and is emitted as that path's bit characters. -/
theorem TableOk.code_of_leaf {t : Table CodeEntry} (ht : TableOk n ns root t) (h : TreeOk n ns root) (hn : 2 ≤ n)
    {x : NodeIdx} (hx : x.toNat < ns.length) (hleaf : (nodeAt ns x).leaf = true) {p : List Bool}
    (hp : followPath ns root p = some x) :
    codeChars (tableGet t (nodeAt ns x).sym) = p.map bitChar ∧
      (tableGet t (nodeAt ns x).sym).len.toNat = p.length := by
  obtain ⟨hpath, hlen⟩ := ht.path hn x.toNat hx ((h.leaf_iff hx).1 hleaf)
  rw [← nodeAt_of_lt hx, BitVec.ofNat_toNat, BitVec.setWidth_eq] at hpath
  rw [← nodeAt_of_lt hx] at hlen
  rw [h.path_unique (by omega) hp hpath, codeChars, codeBits_of_len hlen]
  exact ⟨rfl, hlen⟩

theorem TableOk.exists_leaf_path_of_present {t : Table CodeEntry} (ht : TableOk n ns root t) (h : TreeOk n ns root)
    (hn : 2 ≤ n) {c : Byte} (hc : (tableGet t c).len ≠ 0) :
    ∃ (x : NodeIdx) (p : List Bool), followPath ns root p = some x ∧ (nodeAt ns x).leaf = true ∧
      (nodeAt ns x).sym = c := by
  obtain ⟨k, hk, hkn, rfl⟩ := ht.exists_leaf_of_present hc
  have hnode := h.nodeAt_ofNat hk
  refine ⟨BitVec.ofNat 9 k, _, (ht.path hn k hk hkn).1, ?_, by rw [hnode]⟩
  rw [hnode]
  exact (h.leaves k hk).2 hkn

end Tree

/-- The code of the single leaf's symbol is the character '0' (R155). -/
theorem TableOk.code_of_single {ns : List Node} {root : NodeIdx} {t : Table CodeEntry} (ht : TableOk 1 ns root t)
    (h : TreeOk 1 ns root) : tableGet t (nodeAt ns root).sym = ⟨1, [false]⟩ := by
  have hroot := h.root_lt one_ne_zero
  rw [nodeAt_of_lt hroot]
  exact ht.single rfl _ hroot

theorem TableOk.eq_single_of_present {ns : List Node} {root : NodeIdx} {t : Table CodeEntry} (ht : TableOk 1 ns root t)
    (h : TreeOk 1 ns root) {c : Byte} (hc : (tableGet t c).len ≠ 0) : (nodeAt ns root).sym = c := by
  obtain ⟨k, hk, hk1, rfl⟩ := ht.exists_leaf_of_present hc
  have hroot : root.toNat = k := by
    have := h.rootIndex
    omega
  subst hroot
  rw [nodeAt_of_lt hk]

/-! ### Decoding an encoding -/

/-- The scan of a path from an internal node to a leaf emits the leaf's symbol and goes back to the root. -/
theorem decodeScan_path {s : State} (h1 : s.nsym ≠ 1) {k x : NodeIdx} {p : List Bool}
    (hp : followPath s.node k p = some x) (hinner : (nodeAt s.node k).leaf = false)
    (hleaf : (nodeAt s.node x).leaf = true) (rest : List Byte) :
    decodeScan s k (p.map bitChar ++ rest) = (decodeScan s s.root rest).map ((nodeAt s.node x).sym :: ·) := by
  induction p generalizing k with
  | nil =>
    obtain rfl : k = x := by simpa [followPath] using hp
    simp [hinner] at hleaf
  | cons b p ih =>
    simp only [followPath, hinner, Bool.false_eq_true, if_false] at hp
    cases hchild : (nodeAt s.node (child (nodeAt s.node k) b)).leaf with
    | false => exact (decodeScan_of_inner h1 (charBit_bitChar b) hchild _).trans (ih hp hchild)
    | true =>
      cases p with
      | nil =>
        obtain rfl : child (nodeAt s.node k) b = x := by simpa [followPath] using hp
        exact decodeScan_of_leaf h1 (charBit_bitChar b) hchild rest
      | cons c p => simp [followPath, hchild] at hp

/-- The scan of a present code from the root emits its symbol and goes back to the root. -/
theorem decodeScan_code {s : State} (hs : Sound s) (hn : s.nsym ≠ 0) {c : Byte} (hc : (tableGet s.code c).len ≠ 0)
    (rest : List Byte) :
    decodeScan s s.root (codeChars (tableGet s.code c) ++ rest) = (decodeScan s s.root rest).map (c :: ·) := by
  have htree := hs.tree
  have htable := hs.table
  by_cases h1 : s.nsym = 1
  · have hnat : s.nsym.toNat = 1 := by simp [h1]
    rw [hnat] at htree htable
    obtain rfl := htable.eq_single_of_present htree hc
    rw [htable.code_of_single htree]
    exact decodeScan_of_single h1 rfl rest
  · have htwo := two_le_nsym_iff.2 ⟨hn, h1⟩
    obtain ⟨x, p, hp, hleaf, rfl⟩ := htable.exists_leaf_path_of_present htree htwo hc
    rw [(htable.code_of_leaf htree htwo (htree.followPath_lt (by omega) hp) hleaf hp).1]
    exact decodeScan_path h1 hp (htree.root_inner htwo) hleaf rest

theorem decodeScan_of_encodeCall {s : State} (hs : Sound s) (hn : s.nsym ≠ 0) {text bits : List Byte}
    (h : encodeCall s text = .ok bits) : decodeScan s s.root bits = .ok text := by
  induction text generalizing bits with
  | nil =>
    cases h
    exact decodeScan_nil_root
  | cons c cs ih =>
    by_cases hc : (tableGet s.code c).len = 0
    · rw [encodeCall_of_absent hn hc] at h
      cases h
    · rw [encodeCall_of_present hn hc, map_eq_ok_iff] at h
      obtain ⟨rest, hrest, rfl⟩ := h
      rw [decodeScan_code hs hn hc, ih hrest]
      rfl

/-! ### Encoding what was decoded -/

/-- Under a single leaf a scan without error has read '0' characters only, each the code of the one symbol. -/
theorem encodeCall_of_decodeScan_single {s : State} (hs : Sound s) (h1 : s.nsym = 1) {bits text : List Byte}
    (h : decodeScan s s.root bits = .ok text) : encodeCall s text = .ok bits := by
  induction bits generalizing text with
  | nil =>
    rw [decodeScan_nil_root] at h
    cases h
    rfl
  | cons c cs ih =>
    cases hb : charBit c with
    | none =>
      rw [decodeScan_of_badBit hb] at h
      cases h
    | some b =>
      cases b with
      | true =>
        rw [decodeScan_of_noCode h1 hb] at h
        cases h
      | false =>
        rw [decodeScan_of_single h1 hb, map_eq_ok_iff] at h
        obtain ⟨text, htext, rfl⟩ := h
        have hnat : s.nsym.toNat = 1 := by simp [h1]
        have hcode := (hnat ▸ hs.table).code_of_single (hnat ▸ hs.tree)
        rw [encodeCall_of_present (by simp [h1]) (by simp [hcode]), ih htext, hcode, charBit_eq_some hb]
        rfl

/-- The bits on the path to the cursor, then those still to be scanned, are the encoding of what the scan answers. -/
theorem encodeCall_of_decodeScan_walk {s : State} (hs : Sound s) (htwo : 2 ≤ s.nsym.toNat) {bits text : List Byte}
    {k : NodeIdx} {p : List Bool} (hp : followPath s.node s.root p = some k)
    (hinner : (nodeAt s.node k).leaf = false) (h : decodeScan s k bits = .ok text) :
    encodeCall s text = .ok (p.map bitChar ++ bits) := by
  have htree := hs.tree
  have hpos : s.nsym.toNat ≠ 0 := by omega
  obtain ⟨hn, h1⟩ := two_le_nsym_iff.1 htwo
  induction bits generalizing k p text with
  | nil =>
    by_cases hk : k = s.root
    · subst hk
      rw [decodeScan_nil_root] at h
      cases h
      rw [htree.path_to_root hpos hp]
      rfl
    · rw [decodeScan_nil_inner hk] at h
      cases h
  | cons c cs ih =>
    cases hb : charBit c with
    | none =>
      rw [decodeScan_of_badBit hb] at h
      cases h
    | some b =>
      have hnext := followPath_snoc hp hinner b
      have hbits : p.map bitChar ++ c :: cs = (p ++ [b]).map bitChar ++ cs := by simp [charBit_eq_some hb]
      rw [hbits]
      cases hleaf : (nodeAt s.node (child (nodeAt s.node k) b)).leaf with
      | false =>
        rw [decodeScan_of_inner h1 hb hleaf] at h
        exact ih hnext hleaf h
      | true =>
        rw [decodeScan_of_leaf h1 hb hleaf, map_eq_ok_iff] at h
        obtain ⟨text, htext, rfl⟩ := h
        have hrest : encodeCall s text = .ok cs := ih (p := []) rfl (htree.root_inner htwo) htext
        obtain ⟨hcode, hlen⟩ := hs.table.code_of_leaf htree htwo (htree.followPath_lt hpos hnext) hleaf hnext
        have hpresent : (tableGet s.code (nodeAt s.node (child (nodeAt s.node k) b)).sym).len ≠ 0 := by
          intro h0
          simp [h0] at hlen
        rw [encodeCall_of_present hn hpresent, hrest, hcode]
        rfl

theorem encodeCall_of_decodeScan {s : State} (hs : Sound s) (hn : s.nsym ≠ 0) {bits text : List Byte}
    (h : decodeScan s s.root bits = .ok text) : encodeCall s text = .ok bits := by
  by_cases h1 : s.nsym = 1
  · exact encodeCall_of_decodeScan_single hs h1 h
  · have htwo := two_le_nsym_iff.2 ⟨hn, h1⟩
    exact encodeCall_of_decodeScan_walk hs htwo (p := []) rfl (hs.tree.root_inner htwo) h

theorem encodeCall_ok_iff_of_empty {s : State} (hn : s.nsym = 0) {text bits : List Byte} :
    encodeCall s text = .ok bits ↔ text = [] ∧ bits = [] := by
  cases text with
  | nil => simp [encodeCall, eq_comm]
  | cons c cs => simp only [encodeCall_of_empty hn, reduceCtorEq, false_and]

theorem decodeCall_ok_iff_of_empty {s : State} (hn : s.nsym = 0) {text bits : List Byte} :
    decodeCall s bits = .ok text ↔ text = [] ∧ bits = [] := by
  cases bits with
  | nil => simp [decodeCall, eq_comm]
  | cons c cs => simp only [decodeCall_of_empty hn, reduceCtorEq, and_false]

/-- Settles O55: with no tree both calls accept the empty input only; otherwise the scan of an encoding emits its text,
and the text of a scan encodes to what was scanned. -/
theorem decodeInvertsEncode : Obligations.DecodeInvertsEncode := by
  unfold Obligations.DecodeInvertsEncode
  intro s hs text bits
  by_cases hn : s.nsym = 0
  · rw [encodeCall_ok_iff_of_empty hn, decodeCall_ok_iff_of_empty hn]
  · rw [decodeCall_of_tree hn]
    exact ⟨decodeScan_of_encodeCall hs hn, encodeCall_of_decodeScan hs hn⟩

end Sys2Proof.Machine

/-! SUPPORT. The two commands that belong to no sub-block, `NOP` and `RD_REG` (44_system.md R170, R171), and the
register map (10_state.md R35) as numbers. -/

namespace Sys2Proof.Machine

/-- Settles O9: `NOP` has no effect and is legal in every mode. -/
theorem nopDoesNothing : Obligations.NopDoesNothing := by
  unfold Obligations.NopDoesNothing
  exact ⟨rfl, fun s => exec_of_not_rejected (s := s) rfl⟩

/-! ### RD_REG -/

theorem modeCode_toNat (m : Mode) : (modeCode m).toNat = modeNumber m := by cases m <;> rfl

theorem rspWord_reg (d : Byte) : rspWord .reg d = BitVec.ofNat 16 (0x6000 + d.toNat) := by
  apply BitVec.eq_of_toNat_eq
  have := d.isLt
  have hkind : (kindCode .reg).toNat = 6 := rfl
  rw [rspWord_toNat, hkind, BitVec.toNat_ofNat]
  omega

theorem encode_rdReg_toNat (r : Byte) : (encode (.rdReg r)).toNat = 0xB000 + r.toNat := by
  rw [encode, Laws.EncodeWord.commandWord_toNat, Nat.add_right_cancel_iff]
  rfl

theorem lowByte_toNat (v : NodeIdx) : (lowByte v).toNat = v.toNat % 256 := by
  simp [lowByte]

theorem highByte_toNat (v : NodeIdx) : (highByte v).toNat = v.toNat / 256 := by
  have := v.isLt
  simp [highByte, Nat.shiftRight_eq_div_pow]
  omega

/-- The byte made of the three flags and `MODE`, each flag by its weight (R35). -/
theorem flagByte_toNat (root single nonempty : Bool) (m : BitVec 2) :
    (0#3 ++ BitVec.ofBool root ++ BitVec.ofBool single ++ BitVec.ofBool nonempty ++ m : Byte).toNat =
      m.toNat + (if nonempty then 4 else 0) + (if single then 8 else 0) + (if root then 16 else 0) := by
  revert m
  cases root <;> cases single <;> cases nonempty <;> decide

theorem statusByte_toNat (s : State) :
    (statusByte s).toNat = modeNumber s.mode + (if 1 ≤ s.nsym.toNat then 4 else 0)
      + (if s.nsym.toNat = 1 then 8 else 0) + (if s.cur = s.root then 16 else 0) := by
  rw [statusByte, flagByte_toNat, modeCode_toNat]
  simp [flagNonempty, flagSingle, flagAtRoot]

/-- The register map as bytes and as numbers (10_state.md R35). -/
theorem registerValue_eq (s : State) (r : Byte) : registerValue s r.toNat = (regRead r s).map BitVec.toNat := by
  unfold regRead
  split
  case h_1 hr => rw [hr]; exact congrArg some (statusByte_toNat s).symm
  case h_2 hr => rw [hr]; exact congrArg some (BitVec.toNat_setWidth_of_le (w := 4) (w' := 8) (by decide)).symm
  case h_3 hr => rw [hr]; exact congrArg some (BitVec.toNat_setWidth_of_le (w := 2) (w' := 8) (by decide)).symm
  case h_4 hr => rw [hr]; exact congrArg some (lowByte_toNat s.nsym).symm
  case h_5 hr => rw [hr]; exact congrArg some (highByte_toNat s.nsym).symm
  case h_6 hr => rw [hr]; exact congrArg some (lowByte_toNat s.root).symm
  case h_7 hr => rw [hr]; exact congrArg some (highByte_toNat s.root).symm
  case h_8 hr => rw [hr]; rfl
  case h_9 =>
    simp only [imp_false] at *
    have hassigned : (8 ≤ r.toNat ∧ r.toNat < 8 + s.lenW.bytes) ↔ r.toNat - 8 < s.lenW.bytes := by omega
    simp only [registerValue, *, if_false]
    split <;> simp [textLenByte]

/-- Settles O21: the byte of an assigned number, and the fault of every other. -/
theorem rdRegReadsRegisterMap : Obligations.RdRegReadsRegisterMap := by
  unfold Obligations.RdRegReadsRegisterMap
  refine fun r => ⟨encode_rdReg_toNat r, fun s => ?_⟩
  have hexec : exec (.rdReg r) s = execRdReg r s := rfl
  rw [registerValue_eq, hexec, execRdReg]
  cases regRead r s with
  | none => exact ⟨nofun, fun _ => rfl⟩
  | some b =>
    refine ⟨fun v hv => ?_, nofun⟩
    obtain rfl : b.toNat = v := Option.some.inj hv
    exact ⟨b.isLt, by rw [← rspWord_reg]; rfl⟩

end Sys2Proof.Machine

/-! SUPPORT. The build call (44_system.md R172): the state it answers for a text that fits, which meets the machine's
invariant whatever state it was called in, and what it answers for a text that is too long. -/

namespace Sys2Proof.Machine

/-! ### The counts of a text -/

theorem sum_addText (text : List Byte) (t : Table Nat) : (addText text t).toList.sum = t.toList.sum + text.length := by
  induction text generalizing t with
  | nil => rw [addText_nil, List.length_nil, Nat.add_zero]
  | cons a text ih =>
    have hset := sum_tableSet t a (tableGet t a + 1)
    rw [addText_cons, ih, List.length_cons]
    omega

theorem tableGet_afterCounting (text : List Byte) (s : State) (b : Byte) :
    tableGet (afterCounting text s).freq b = text.count b := by
  show tableGet (addText text (Vector.replicate 256 0)) b = _
  rw [tableGet_addText, tableGet_replicate, Nat.zero_add]

theorem afterCounting_wlen (text : List Byte) (s : State) : (afterCounting text s).wlen = text.length :=
  Nat.zero_add _

theorem countsOk_afterCounting {text : List Byte} {s : State} (hfit : text.length ≤ s.lenW.lenMax) :
    CountsOk (afterCounting text s) where
  sum := by
    have hzero := (countsOk_resetWith s.lenW).sum
    show 0 + text.length = (addText text (State.resetWith s.lenW).freq).toList.sum
    rw [sum_addText, ← hzero]
    rfl
  bound := by rw [afterCounting_wlen]; exact hfit

/-- There is one leaf per symbol that the table counts. -/
theorem map_sym_enumerateLeaves (freq : Table Nat) :
    (enumerateLeaves freq).map Node.sym = allSymbols.filter fun b => 1 ≤ tableGet freq b := by
  rw [enumerateLeaves]
  induction allSymbols with
  | nil => rfl
  | cons b bs ih =>
    by_cases hb : 1 ≤ tableGet freq b
    · simpa [hb, leafNode] using ih
    · simpa [hb] using ih

/-- The leaves of a text's counts are as many as its distinct symbols. -/
theorem enumerateLeaves_length_of_count {freq : Table Nat} {text : List Byte}
    (hfreq : ∀ b, tableGet freq b = text.count b) : (enumerateLeaves freq).length = text.dedup.length := by
  have hnodup : (allSymbols.filter fun b => 1 ≤ tableGet freq b).Nodup :=
    (allSymbols_ascending.imp BitVec.ne_of_lt).filter _
  rw [← List.length_map (f := Node.sym), map_sym_enumerateLeaves]
  refine ((List.perm_ext_iff_of_nodup hnodup text.nodup_dedup).2 fun b => ?_).length_eq
  simp [mem_allSymbols, hfreq, List.one_le_count_iff]

/-! ### A text that fits -/

theorem buildAndPublish_nsym_toNat (s : State) :
    (buildAndPublish s).nsym.toNat = (enumerateLeaves s.freq).length := by
  have hle := enumerateLeaves_length_le s.freq
  exact Nat.mod_eq_of_lt (by omega)

/-- The tree that a successful build publishes starts with the leaves of the counts. -/
theorem enumerateLeaves_prefix_buildAndPublish {s : State} (h : CountsOk s) :
    enumerateLeaves (buildAndPublish s).freq <+: (buildAndPublish s).node :=
  (buildTree_spec (h.sum ▸ h.bound)).1

/-- The state with no frame open and with these responses. -/
def idleWith (r : List Word) (s : State) : State := { s with mode := .idle, rsp := r }

@[simp] theorem idleWith_freq (r : List Word) (s : State) : (idleWith r s).freq = s.freq := rfl
@[simp] theorem idleWith_node (r : List Word) (s : State) : (idleWith r s).node = s.node := rfl
@[simp] theorem idleWith_code (r : List Word) (s : State) : (idleWith r s).code = s.code := rfl

/-- What was published before plays no part in the invariant of the state after a successful build. -/
theorem sound_idleWith_buildAndPublish {s : State} (h : CountsOk s) (he : s.err = 0) (r : List Word) :
    Sound (idleWith r (buildAndPublish s)) := by
  have hpub := publishedOk_buildAndPublish h
  refine sound_iff.2 ⟨⟨h.sum, h.bound⟩, ?_, ⟨hpub.tree, hpub.merged, hpub.length, hpub.width, hpub.table⟩,
    cursorOk_of_cur_eq_root rfl nofun⟩
  show s.err ∈ _
  rw [he]
  exact zero_mem_errAllowed ..

/-- The state after a build call on a text that fits. -/
def built (text : List Byte) (s : State) : State :=
  idleWith (s.rsp ++ [0x3000]) (buildAndPublish (afterCounting text s))

theorem execAll_build_of_fits {s : State} {text : List Byte} (hm : s.mode = .idle)
    (hfit : text.length ≤ s.lenW.lenMax) : execAll (expandCall (.build text)) s = .next (built text s) := by
  rw [execAll_build hm hfit, execAll, exec_bldEnd_of_ok rfl rfl]
  rfl

theorem tableGet_built_freq (text : List Byte) (s : State) (b : Byte) :
    tableGet (built text s).freq b = text.count b := tableGet_afterCounting text s b

theorem built_nsym_toNat (text : List Byte) (s : State) :
    (built text s).nsym.toNat = (enumerateLeaves (built text s).freq).length :=
  buildAndPublish_nsym_toNat (afterCounting text s)

theorem built_nsym_eq_distinct (text : List Byte) (s : State) : (built text s).nsym.toNat = text.dedup.length := by
  rw [built_nsym_toNat, enumerateLeaves_length_of_count (tableGet_built_freq text s)]

/-- A build call leads from every idle state, sound or not, to a sound one. -/
theorem sound_built {text : List Byte} {s : State} (hfit : text.length ≤ s.lenW.lenMax) : Sound (built text s) :=
  sound_idleWith_buildAndPublish (countsOk_afterCounting hfit) rfl _

/-- The published tree starts with the leaves of the text's counts. -/
theorem enumerateLeaves_prefix_built {text : List Byte} {s : State} (hfit : text.length ≤ s.lenW.lenMax) :
    enumerateLeaves (built text s).freq <+: (built text s).node := by
  rw [built, idleWith_freq, idleWith_node]
  exact enumerateLeaves_prefix_buildAndPublish (countsOk_afterCounting hfit)

/-! ### A text that is too long -/

theorem execAll_bldSym_append_of_error {s : State} (hm : s.mode = .build) (he : s.err ≠ 0) (text : List Byte)
    (is : List Instr) : execAll (text.map .bldSym ++ is) s = execAll is s := by
  induction text with
  | nil => rfl
  | cons a text ih =>
    have hexec : exec (.bldSym a) s = .next s := by rw [exec_bldSym hm, unlessError_eq, if_neg he]
    rw [← ih]
    exact execAll_cons_of_next hexec _

/-- `execAll_build` for the first commands of a build call, whatever follows the symbols that fit. -/
theorem execAll_bldBegin_bldSym_append {s : State} {text : List Byte} (hm : s.mode = .idle)
    (hfit : text.length ≤ s.lenW.lenMax) (is : List Instr) :
    execAll (.bldBegin :: (text.map .bldSym ++ is)) s = execAll is (afterCounting text s) := by
  have hbegin : exec .bldBegin s = .next (effect .bldBegin s) :=
    exec_of_not_rejected (by simp [rejected, legalIn, hm])
  have hcounts : CountsOk (effect .bldBegin s) := ⟨(countsOk_resetWith s.lenW).sum, Nat.zero_le _⟩
  have hwlen : (effect .bldBegin s).wlen + text.length ≤ s.lenW.lenMax := (Nat.zero_add _).trans_le hfit
  rw [execAll_cons_of_next hbegin]
  exact execAll_bldSym_append rfl rfl hcounts hwlen is

theorem exec_bldSym_of_full {s : State} (hm : s.mode = .build) (he : s.err = 0) (hfull : s.wlen = s.lenW.lenMax)
    (a : Byte) : exec (.bldSym a) s = .next (frameError .capacity s) := by
  rw [exec_bldSym hm, unlessError_eq, if_pos he, countSymbol_of_full hfull]

/-- After `LEN_MAX` symbols the next one records E_CAPACITY, the rest are inert, and nothing is published
(R102, R114). -/
theorem execAll_build_of_too_long {s : State} {text : List Byte} (hm : s.mode = .idle)
    (hlong : s.lenW.lenMax < text.length) :
    execAll (expandCall (.build text)) s = .next
      { afterCounting (text.take s.lenW.lenMax) s with err := 6, mode := .idle, rsp := s.rsp ++ [0x3006] } := by
  generalize hcounted : text.take s.lenW.lenMax = counted
  generalize hbeyond : text.drop s.lenW.lenMax = beyond
  have hlen : counted.length = s.lenW.lenMax := by rw [← hcounted, List.length_take_of_le hlong.le]
  obtain ⟨a, rest, rfl⟩ : ∃ a rest, beyond = a :: rest := by
    refine List.exists_cons_of_ne_nil fun hnil => ?_
    rw [hnil, List.drop_eq_nil_iff] at hbeyond
    omega
  have hsplit : expandCall (.build text) =
      .bldBegin :: (counted.map .bldSym ++ (.bldSym a :: (rest.map .bldSym ++ [.bldEnd]))) := by
    rw [expandCall, ← List.take_append_drop s.lenW.lenMax text, hcounted, hbeyond]
    simp
  have hfull : (afterCounting counted s).wlen = (afterCounting counted s).lenW.lenMax :=
    (afterCounting_wlen counted s).trans hlen
  have herr : (frameError .capacity (afterCounting counted s)).err ≠ 0 := by simp [statusCode]
  rw [hsplit, execAll_bldBegin_bldSym_append hm hlen.le, execAll_cons_of_next (exec_bldSym_of_full rfl rfl hfull a),
    execAll_bldSym_append_of_error rfl herr, execAll_cons_of_next (exec_bldEnd_of_error rfl herr)]
  rfl

/-- Settles O49: a text that fits is counted from 0 and published; in one that is too long the first symbol beyond
`LEN_MAX` fails the frame. -/
theorem buildCallCountsText : Obligations.BuildCallCountsText := by
  unfold Obligations.BuildCallCountsText
  refine fun s text hm => ⟨fun hfit => ⟨built text s, execAll_build_of_fits hm hfit, rfl, rfl, rfl,
    tableGet_built_freq text s, afterCounting_wlen text s, afterCounting_wlen text s, built_nsym_eq_distinct text s⟩,
    fun hlong => ⟨_, execAll_build_of_too_long hm hlong, rfl, rfl, rfl, rfl, rfl, rfl, rfl, rfl, rfl⟩⟩

end Sys2Proof.Machine

/-! SUPPORT. The calls after a build (44_system.md R176, R181): every symbol of the built text has a code, so the text
is encoded, and its encoding is decoded. -/

namespace Sys2Proof.Machine

/-- A leaf's symbol is present: its code is the bit 0, or a path that leaves the root. -/
theorem TableOk.present_of_leaf {n : Nat} {ns : List Node} {root : NodeIdx} {c : Table CodeEntry}
    (h : TableOk n ns root c) (ht : TreeOk n ns root) {k : Nat} (hk : k < ns.length) (hkn : k < n) :
    (tableGet c ns[k].sym).len ≠ 0 := by
  obtain h1 | h2 : n = 1 ∨ 2 ≤ n := by omega
  · rw [h.single h1 k hk]
    decide
  · obtain ⟨hpath, hlen⟩ := h.path h2 k hk hkn
    intro h0
    have hnil : (tableGet c ns[k].sym).bits = [] := List.length_eq_zero_iff.1 (by rw [← hlen, h0]; rfl)
    rw [hnil, followPath, Option.some.injEq] at hpath
    have hroot := ht.rootIndex
    rw [hpath, ht.ofNat_toNat hk] at hroot
    omega

section
variable {text : List Byte} {s : State}

theorem built_present (hfit : text.length ≤ s.lenW.lenMax) {c : Byte} (hc : c ∈ text) :
    (tableGet (built text s).code c).len ≠ 0 := by
  have hs : Sound (built text s) := sound_built hfit
  have hprefix := enumerateLeaves_prefix_built (s := s) hfit
  have hcount : 1 ≤ tableGet (built text s).freq c := by
    rw [tableGet_built_freq, List.one_le_count_iff]
    exact hc
  obtain ⟨k, hk, hleaf⟩ := List.getElem_of_mem (mem_enumerateLeaves.2 ⟨c, hcount, rfl⟩)
  have hnode := hprefix.getElem hk
  have hpresent := hs.table.present_of_leaf hs.tree (hk.trans_le hprefix.length_le) (by rwa [built_nsym_toNat])
  rwa [← hnode, hleaf] at hpresent

/-- The built text is encoded by the codes of its symbols. -/
theorem encodeCall_built (hfit : text.length ≤ s.lenW.lenMax) :
    encodeCall (built text s) text = .ok (text.flatMap fun c => codeChars (tableGet (built text s).code c)) := by
  have hpresent {c : Byte} (hc : c ∈ text) : (tableGet (built text s).code c).len ≠ 0 := built_present hfit hc
  cases text with
  | nil => rfl
  | cons a as =>
    have hs : Sound (built (a :: as) s) := sound_built hfit
    obtain ⟨k, -, hkn, -⟩ := hs.table.exists_leaf_of_present (hpresent (List.mem_cons_self ..))
    have hn : (built (a :: as) s).nsym ≠ 0 := by
      intro h0
      rw [h0] at hkn
      exact Nat.not_lt_zero k hkn
    have hany : ¬ ((a :: as).any fun c => (tableGet (built (a :: as) s).code c).len == 0) = true := by
      rw [List.any_eq_true]
      rintro ⟨c, hc, h0⟩
      exact hpresent hc (beq_iff_eq.1 h0)
    rw [encodeCall_of_tree hn, if_neg hany]

end

section
variable {t : State} {text bits : List Byte}

/-- An encode frame that succeeds adds its responses and changes nothing else. -/
theorem exists_encode_frame (hm : t.mode = .idle) (he : t.err = 0) (h : encodeCall t text = .ok bits) :
    ∃ ws, execAll (expandCall (.encode text)) t = .next { t with rsp := t.rsp ++ ws } ∧
      frameResult .bit ws = some (.ok bits) := by
  obtain ⟨ws, e, hrun, -, hok, -⟩ := encodeCallComputesR140 t text hm
  obtain ⟨rfl, hresult⟩ := hok bits h
  refine ⟨ws, ?_, hresult⟩
  rw [hrun, ← he]

/-- In a sound state the decode frame of an encoding answers the text, whatever responses have come before. -/
theorem exists_decode_frame (hs : Sound t) (hm : t.mode = .idle) (h : encodeCall t text = .ok bits) (r : List Word) :
    ∃ ws v, execAll (expandCall (.decode bits)) { t with rsp := r } = .next v ∧ v.rsp = r ++ ws ∧
      frameResult .sym ws = some (.ok text) := by
  have hsound : Sound { t with rsp := r } := sound_ignoresStreams t t.fault t.host r hs
  have hdecode := (decodeInvertsEncode _ hsound text bits).1 h
  obtain ⟨ws, e, hrun, hok, -⟩ := decodeCallComputesR157 { t with rsp := r } bits hm
  exact ⟨ws, _, hrun, rfl, (hok text hdecode).2.2⟩

end

/-- Settles O54: the built state is sound, so decoding inverts the encoding of the text. -/
theorem roundTripLaw : Obligations.RoundTripLaw := by
  unfold Obligations.RoundTripLaw
  intro s text hm hfit
  have hencode := encodeCall_built (s := s) hfit
  obtain ⟨ws, hrun, hbits⟩ := exists_encode_frame rfl rfl hencode
  obtain ⟨ws', v, hrun', hrsp, htext⟩ := exists_decode_frame (sound_built hfit) rfl hencode ((built text s).rsp ++ ws)
  exact ⟨_, _, v, _, ws, ws', execAll_build_of_fits hm hfit, rfl, hrun, rfl, hbits, hrun', hrsp, htext⟩

/-! ### A text of one symbol -/

/-- The symbol of a text that repeats it has the one-bit code (R110, R122). -/
theorem tableGet_buildAndPublish_of_one_symbol {s : State} {a : Byte} (ha : 1 ≤ tableGet s.freq a)
    (hother : ∀ c, c ≠ a → tableGet s.freq c = 0) : tableGet (buildAndPublish s).code a = ⟨1, [false]⟩ := by
  rw [buildAndPublish_of_one_symbol ha hother]
  exact tableGet_tableSet_self ..

theorem codeChars_built_replicate (a : Byte) {n : Nat} (hn : 1 ≤ n) (s : State) :
    codeChars (tableGet (built (List.replicate n a) s).code a) = [0x30] := by
  have hfreq := tableGet_afterCounting (List.replicate n a) s
  have hone : 1 ≤ tableGet (afterCounting (List.replicate n a) s).freq a := by
    rwa [hfreq, List.count_replicate_self]
  have hother : ∀ c, c ≠ a → tableGet (afterCounting (List.replicate n a) s).freq c = 0 := fun c hc => by
    rw [hfreq, List.count_eq_zero]
    exact fun hmem => hc (List.eq_of_mem_replicate hmem)
  rw [built, idleWith_code, tableGet_buildAndPublish_of_one_symbol hone hother]
  rfl

/-- Settles O57: each symbol of the text is encoded by the one character '0'. -/
theorem oneSymbolTextEncodesToZeros : Obligations.OneSymbolTextEncodesToZeros := by
  unfold Obligations.OneSymbolTextEncodesToZeros
  intro s a n hm hn hfit
  have hlen : (List.replicate n a).length ≤ s.lenW.lenMax := by rwa [List.length_replicate]
  have hzeros : (List.replicate n a).flatMap (fun c => codeChars (tableGet (built (List.replicate n a) s).code c)) =
      List.replicate n 0x30 := by
    rw [List.flatMap_replicate, codeChars_built_replicate a hn, List.flatten_replicate_singleton]
  have hencode := encodeCall_built (s := s) hlen
  rw [hzeros] at hencode
  obtain ⟨ws, hrun, hbits⟩ := exists_encode_frame rfl rfl hencode
  exact ⟨_, _, ws, execAll_build_of_fits hm hlen, hrun, rfl, hbits⟩

end Sys2Proof.Machine

/-! SUPPORT. The shape of the published tree: who is whose child, how deep a node lies, and in what order the merge
engine takes the nodes (40_tree_builder.md R105, R106; 44_system.md R177, R178). -/

namespace Sys2Proof.Machine

/-! ### No code starts with another -/

/-- No path goes on from a leaf. -/
theorem eq_nil_of_followPath_leaf {ns : List Node} {k x : NodeIdx} {p : List Bool} (hk : (nodeAt ns k).leaf = true)
    (h : followPath ns k p = some x) : p = [] := by
  cases p with
  | nil => rfl
  | cons b p => simp [followPath, hk] at h

theorem followPath_append {ns : List Node} {r x : NodeIdx} {p : List Bool} (h : followPath ns r p = some x)
    (q : List Bool) : followPath ns r (p ++ q) = followPath ns x q := by
  induction p generalizing r with
  | nil =>
    obtain rfl : r = x := by simpa [followPath] using h
    rfl
  | cons b p ih =>
    cases hr : (nodeAt ns r).leaf with
    | true => simp [followPath, hr] at h
    | false =>
      simp only [followPath, hr, List.cons_append, Bool.false_eq_true, if_false] at h ⊢
      exact ih h

/-- Settles O29: a code that another starts with would lead to a leaf from which the other's path goes on. -/
theorem codesArePrefixFree : Obligations.CodesArePrefixFree := by
  unfold Obligations.CodesArePrefixFree
  rintro s hs a b hab ha hb ⟨q, hq⟩
  obtain ⟨i, hi, hin, rfl⟩ := hs.table.exists_leaf_of_present ha
  obtain ⟨j, hj, hjn, rfl⟩ := hs.table.exists_leaf_of_present hb
  refine hab ?_
  obtain h1 | h2 : s.nsym.toNat = 1 ∨ 2 ≤ s.nsym.toNat := by omega
  · obtain rfl : i = j := by omega
    rfl
  · obtain ⟨hpi, -⟩ := hs.table.path h2 i hi hin
    obtain ⟨hpj, -⟩ := hs.table.path h2 j hj hjn
    have hleaf : (nodeAt s.node (BitVec.ofNat 9 i)).leaf = true := by
      rw [hs.tree.nodeAt_ofNat hi]
      exact (hs.tree.leaves i hi).2 hin
    rw [← hq, followPath_append hpi] at hpj
    rw [eq_nil_of_followPath_leaf hleaf hpj, followPath, Option.some.injEq] at hpj
    have hij := congrArg BitVec.toNat hpj
    rw [hs.tree.ofNat_toNat hi, hs.tree.ofNat_toNat hj] at hij
    subst hij
    rfl

/-! ### Children, by index -/

/-- Node `x` is a child of node `k`. -/
def IsChild (ns : List Node) (k x : Nat) : Prop := ∃ h : k < ns.length, hasChild ns[k] x = true

section Tree

variable {n : Nat} {ns : List Node} {root : NodeIdx} {k x : Nat}

theorem TreeOk.getElem_inner_iff (h : TreeOk n ns root) (hk : k < ns.length) : ns[k].leaf = false ↔ n ≤ k := by
  rw [← Bool.not_eq_true, h.leaves k hk, not_lt]

theorem TreeOk.isChild_iff (h : TreeOk n ns root) (hk : k < ns.length) :
    IsChild ns k x ↔ n ≤ k ∧ (ns[k].left.toNat = x ∨ ns[k].right.toNat = x) := by
  simp [IsChild, hk, hasChild, h.getElem_inner_iff hk]

/-- A child comes before its parent, which is no leaf. -/
theorem TreeOk.lt_of_isChild (h : TreeOk n ns root) (hc : IsChild ns k x) : n ≤ k ∧ x < k ∧ k < ns.length := by
  have hk : k < ns.length := hc.1
  obtain ⟨hnk, hx⟩ := (h.isChild_iff hk).1 hc
  obtain ⟨-, -, hleft, hright, -⟩ := h.innerNode k hk ((h.getElem_inner_iff hk).2 hnk)
  omega

theorem TreeOk.isParent_of_isChild (h : TreeOk n ns root) (hc : IsChild ns k x) :
    IsParent ns (BitVec.ofNat 9 k) (BitVec.ofNat 9 x) := by
  obtain ⟨-, hxk, hk⟩ := h.lt_of_isChild hc
  have hk' := h.ofNat_toNat hk
  refine (isParent_iff (h.ofNat_lt hk)).2 ?_
  rw [h.ofNat_toNat (hxk.trans hk)]
  simpa only [hk'] using hc.2

theorem TreeOk.isChild_unique (h : TreeOk n ns root) {j : Nat} (hj : IsChild ns j x) (hk : IsChild ns k x) :
    j = k := by
  obtain ⟨-, hxj, hjlt⟩ := h.lt_of_isChild hj
  have hparent := h.parent_unique (h.ofNat_lt hjlt) (h.ofNat_lt hk.1) (h.ofNat_lt (hxj.trans hjlt))
    (h.isParent_of_isChild hj) (h.isParent_of_isChild hk)
  rw [← h.ofNat_toNat hjlt, hparent, h.ofNat_toNat hk.1]

theorem TreeOk.exists_isChild (h : TreeOk n ns root) (hx : x < ns.length) (hne : x ≠ root.toNat) :
    ∃ k, IsChild ns k x := by
  have hne' : BitVec.ofNat 9 x ≠ root := fun he => hne (by rw [← he, h.ofNat_toNat hx])
  obtain ⟨k, hk, -, hparent⟩ := h.exists_parent (h.ofNat_lt hx) hne'
  rw [isParent_iff hk, h.ofNat_toNat hx] at hparent
  exact ⟨k.toNat, hk, hparent⟩

/-- The root is the last node (R111). -/
theorem TreeOk.length_eq_root_add_one (h : TreeOk n ns root) (hx : x < ns.length) : ns.length = root.toNat + 1 := by
  have hsize := h.size
  have hroot := h.rootIndex
  unfold nnode at hsize
  split at hsize <;> omega

/-- The two children of an internal node, and its frequency as their sum. -/
theorem TreeOk.exists_children (h : TreeOk n ns root) (hk : k < ns.length) (hnk : n ≤ k) :
    ∃ l r, l ≠ r ∧ (∀ x, IsChild ns k x ↔ x = l ∨ x = r) ∧ freqAt ns k = freqAt ns l + freqAt ns r := by
  obtain ⟨-, hne, hleft, hright, hfreq⟩ := h.innerNode k hk ((h.getElem_inner_iff hk).2 hnk)
  refine ⟨ns[k].left.toNat, ns[k].right.toNat, fun he => hne (BitVec.eq_of_toNat_eq he), fun x => ?_, ?_⟩
  · rw [h.isChild_iff hk, and_iff_right hnk, eq_comm (a := x), eq_comm (a := x)]
  · rw [freqAt_of_lt hk, hfreq, nodeAt_freq (hleft.trans hk), nodeAt_freq (hright.trans hk)]

theorem TreeOk.freqAt_le_of_isChild (h : TreeOk n ns root) (hc : IsChild ns k x) : freqAt ns x ≤ freqAt ns k := by
  obtain ⟨hnk, -, hk⟩ := h.lt_of_isChild hc
  obtain ⟨l, r, -, hchild, hsum⟩ := h.exists_children hk hnk
  obtain rfl | rfl := (hchild x).1 hc <;> omega

end Tree

/-! ### The nodes still in the collection -/

theorem mem_liveBefore_iff {ns : List Node} {k x : Nat} (hk : k ≤ ns.length) :
    x ∈ liveBefore ns k ↔ x < k ∧ ∀ j < k, ¬ IsChild ns j x := by
  rw [mem_liveBefore]
  refine and_congr_right fun _ => ⟨fun h j hj hc => ?_, fun h nd hnd => ?_⟩
  · have hmem : ns[j]'hc.1 ∈ ns.take k := List.mem_take_iff_getElem.2 ⟨j, by omega, rfl⟩
    simpa [h _ hmem] using hc.2
  · obtain ⟨j, hj, rfl⟩ := List.mem_take_iff_getElem.1 hnd
    rw [← Bool.not_eq_true]
    exact fun hc => h j (by omega) ⟨by omega, hc⟩

section Merged

variable {n : Nat} {ns : List Node} {root : NodeIdx}

/-- A node taken at a turn has its key before those of the nodes that stay in the collection (R106). -/
theorem MergedArena.keyBefore_of_isChild (hm : MergedArena n ns) (ht : TreeOk n ns root) {k x y : Nat}
    (hx : IsChild ns k x) (hy : y ∈ liveBefore ns k) (hyk : ¬ IsChild ns k y) : keyBefore ns x y := by
  obtain ⟨hnk, -, hk⟩ := ht.lt_of_isChild hx
  obtain ⟨-, -, hlr, hothers⟩ := hm k hk hnk
  rw [ht.isChild_iff hk, and_iff_right hnk, not_or] at hyk
  rw [ht.isChild_iff hk, and_iff_right hnk] at hx
  have hry := hothers y hy (Ne.symm hyk.1) (Ne.symm hyk.2)
  obtain rfl | rfl := hx
  · unfold keyBefore at *
    omega
  · exact hry

/-- The nodes taken at an earlier turn have their keys before those taken later, if the nodes made between the two
turns are no lighter than the one made at the first. -/
theorem MergedArena.keyBefore_of_isChild_lt (hm : MergedArena n ns) (ht : TreeOk n ns root) {p q x z : Nat}
    (hx : IsChild ns p x) (hz : IsChild ns q z) (hpq : p < q) (hmono : p < z → freqAt ns p ≤ freqAt ns z) :
    keyBefore ns x z := by
  obtain ⟨-, hxp, hp⟩ := ht.lt_of_isChild hx
  have hother {j : Nat} (hj : j < q) : ¬ IsChild ns j z := fun hc => hj.ne (ht.isChild_unique hc hz)
  obtain hzp | hpz := Nat.lt_or_ge z p
  · exact hm.keyBefore_of_isChild ht hx ((mem_liveBefore_iff hp.le).2 ⟨hzp, fun j hj => hother (hj.trans hpq)⟩)
      (hother hpq)
  · have hle : freqAt ns p ≤ freqAt ns z := by
      obtain rfl | hlt := hpz.eq_or_lt
      · exact le_rfl
      · exact hmono hlt
    have := ht.freqAt_le_of_isChild hx
    unfold keyBefore
    omega

/-- The merge engine makes its nodes in ascending order of frequency. -/
theorem MergedArena.freqAt_mono (hm : MergedArena n ns) (ht : TreeOk n ns root) {p q : Nat} (hnp : n ≤ p)
    (hpq : p < q) (hq : q < ns.length) : freqAt ns p ≤ freqAt ns q := by
  induction q using Nat.strong_induction_on with
  | _ q ih =>
    obtain ⟨l, r, hlr, hp, hpsum⟩ := ht.exists_children (hpq.trans hq) hnp
    obtain ⟨l', r', hlr', hq', hqsum⟩ := ht.exists_children hq (hnp.trans hpq.le)
    have hle {x z : Nat} (hx : IsChild ns p x) (hz : IsChild ns q z) : freqAt ns x ≤ freqAt ns z := by
      have hzq := (ht.lt_of_isChild hz).2.1
      have hkey := hm.keyBefore_of_isChild_lt ht hx hz hpq fun hpz => ih z hzq hpz (hzq.trans hq)
      unfold keyBefore at hkey
      omega
    have hl := hle ((hp l).2 (.inl rfl)) ((hq' l').2 (.inl rfl))
    have hr := hle ((hp r).2 (.inr rfl)) ((hq' r').2 (.inr rfl))
    omega

theorem MergedArena.keyBefore_of_parents_lt (hm : MergedArena n ns) (ht : TreeOk n ns root) {p q x z : Nat}
    (hx : IsChild ns p x) (hz : IsChild ns q z) (hpq : p < q) : keyBefore ns x z := by
  obtain ⟨-, hzq, hq⟩ := ht.lt_of_isChild hz
  exact hm.keyBefore_of_isChild_lt ht hx hz hpq fun hpz =>
    hm.freqAt_mono ht (ht.lt_of_isChild hx).1 hpz (hzq.trans hq)

/-- The root's key is the last. -/
theorem MergedArena.keyBefore_root (hm : MergedArena n ns) (ht : TreeOk n ns root) {x : Nat} (hx : x < ns.length)
    (hne : x ≠ root.toNat) : keyBefore ns x root.toNat := by
  have hlen := ht.length_eq_root_add_one hx
  obtain ⟨k, hk⟩ := ht.exists_isChild hx hne
  obtain ⟨hnk, hxk, hklt⟩ := ht.lt_of_isChild hk
  have hle := ht.freqAt_le_of_isChild hk
  have hkr : freqAt ns k ≤ freqAt ns root.toNat := by
    obtain he | hlt : k = root.toNat ∨ k < root.toNat := by omega
    · rw [he]
    · exact hm.freqAt_mono ht hnk hlt (by omega)
  unfold keyBefore
  omega

end Merged

/-! ### Depth -/

/-- `d` gives every node its distance from the root, which is the length of the path to it. -/
structure IsDepth (ns : List Node) (root : NodeIdx) (d : Nat → Nat) : Prop where
  atRoot  : d root.toNat = 0
  atChild : ∀ k x, IsChild ns k x → d x = d k + 1
  atEnd   : ∀ k < ns.length, ∀ p, followPath ns root p = some (BitVec.ofNat 9 k) → d k = p.length

section Depth

variable {n : Nat} {ns : List Node} {root : NodeIdx} {d : Nat → Nat}

theorem TreeOk.exists_path (ht : TreeOk n ns root) {x : NodeIdx} (hx : x.toNat < ns.length) :
    ∃ p, followPath ns root p = some x := by
  induction hm : ns.length - x.toNat using Nat.strong_induction_on generalizing x with
  | _ m ih =>
    by_cases hroot : x = root
    · exact ⟨[], by rw [followPath, hroot]⟩
    · obtain ⟨k, hk, hlt, hinner, hchild⟩ := ht.exists_parent hx hroot
      obtain ⟨p, hp⟩ := ih (ns.length - k.toNat) (by omega) hk rfl
      obtain rfl | rfl := hchild
      · exact ⟨p ++ [false], followPath_snoc hp hinner false⟩
      · exact ⟨p ++ [true], followPath_snoc hp hinner true⟩

theorem TreeOk.exists_isDepth (ht : TreeOk n ns root) (hn : n ≠ 0) : ∃ d, IsDepth ns root d := by
  have hpath : ∀ k, ∃ p, k < ns.length → followPath ns root p = some (BitVec.ofNat 9 k) := fun k => by
    by_cases hk : k < ns.length
    · exact (ht.exists_path (ht.ofNat_lt hk)).imp fun p hp _ => hp
    · exact ⟨[], fun h => absurd h hk⟩
  choose path hpath using hpath
  have hlen : ∀ k < ns.length, ∀ p, followPath ns root p = some (BitVec.ofNat 9 k) → (path k).length = p.length :=
    fun k hk p hp => by rw [ht.path_unique hn (hpath k hk) hp]
  refine ⟨fun k => (path k).length, ?_, fun k x hc => ?_, hlen⟩
  · exact hlen _ (ht.root_lt hn) [] (by simp [followPath])
  · obtain ⟨-, hxk, hk⟩ := ht.lt_of_isChild hc
    obtain ⟨hinner, hchild⟩ := ht.isParent_of_isChild hc
    obtain ⟨b, hb⟩ : ∃ b, child (nodeAt ns (BitVec.ofNat 9 k)) b = BitVec.ofNat 9 x :=
      hchild.elim (fun h => ⟨false, h⟩) (fun h => ⟨true, h⟩)
    have hnext := followPath_snoc (hpath k hk) hinner b
    rw [hb] at hnext
    rw [hlen x (hxk.trans hk) _ hnext, List.length_append, List.length_singleton]

/-- A node whose key is before another's lies at least as deep: its parent is made no later, and the nodes are made in
ascending order of key. -/
theorem IsDepth.le_of_keyBefore (hd : IsDepth ns root d) (ht : TreeOk n ns root) (hm : MergedArena n ns) {x y : Nat}
    (hx : x < ns.length) (hy : y < ns.length) (hxy : keyBefore ns x y) : d y ≤ d x := by
  have hasymm {a b : Nat} (h : keyBefore ns a b) : ¬ keyBefore ns b a := by
    unfold keyBefore at *
    omega
  induction hfuel : ns.length - y using Nat.strong_induction_on generalizing x y with
  | _ m ih =>
    by_cases hyroot : y = root.toNat
    · rw [hyroot, hd.atRoot]
      exact Nat.zero_le _
    have hxroot : x ≠ root.toNat := by
      rintro rfl
      exact hasymm hxy (hm.keyBefore_root ht hy hyroot)
    obtain ⟨p, hp⟩ := ht.exists_isChild hx hxroot
    obtain ⟨q, hq⟩ := ht.exists_isChild hy hyroot
    obtain ⟨hnp, -, hplt⟩ := ht.lt_of_isChild hp
    obtain ⟨-, hyq, hqlt⟩ := ht.lt_of_isChild hq
    rw [hd.atChild p x hp, hd.atChild q y hq]
    obtain hpq | rfl | hqp := lt_trichotomy p q
    · have hkey : keyBefore ns p q := by
        have := hm.freqAt_mono ht hnp hpq hqlt
        unfold keyBefore
        omega
      exact Nat.succ_le_succ (ih (ns.length - q) (by omega) hplt hqlt hkey rfl)
    · exact le_rfl
    · exact absurd (hm.keyBefore_of_parents_lt ht hq hp hqp) (hasymm hxy)

end Depth

/-- With two leaves or more the length of a leaf's code is its depth. -/
theorem TableOk.len_eq_depth {n : Nat} {ns : List Node} {root : NodeIdx} {c : Table CodeEntry} {d : Nat → Nat}
    (h : TableOk n ns root c) (hd : IsDepth ns root d) (hn : 2 ≤ n) {k : Nat} (hk : k < ns.length) (hkn : k < n) :
    (tableGet c ns[k].sym).len.toNat = d k := by
  obtain ⟨hpath, hlen⟩ := h.path hn k hk hkn
  rw [hlen, hd.atEnd k hk _ hpath]

/-- Settles O30: the lighter leaf's key is before the heavier one's, so it lies at least as deep. -/
theorem codeLengthsMonotone : Obligations.CodeLengthsMonotone := by
  unfold Obligations.CodeLengthsMonotone
  intro s hs i j hi hj hin hjn hlt
  obtain h1 | h2 : s.nsym.toNat = 1 ∨ 2 ≤ s.nsym.toNat := by omega
  · obtain rfl : i = j := by omega
    exact absurd hlt (lt_irrefl _)
  · obtain ⟨d, hd⟩ := hs.tree.exists_isDepth (by omega)
    have hkey : keyBefore s.node i j := .inl (by rwa [freqAt_of_lt hi, freqAt_of_lt hj])
    rw [hs.table.len_eq_depth hd h2 hi hin, hs.table.len_eq_depth hd h2 hj hjn]
    exact hd.le_of_keyBefore hs.tree hs.merged hi hj hkey

end Sys2Proof.Machine

/-! SUPPORT. The bound of 8 bits a symbol (44_system.md R179, 93_implementation_defined.md G3). The nodes still in the
collection always weigh as much as the text, and turns that halve the collection make nodes that weigh no more than
that; 256 leaves are merged after eight halvings. -/

namespace Sys2Proof.Machine

/-- Of two sets of indices, the one with no more elements has no larger sum when outside the other its values are no
larger than the other's outside it. -/
theorem sum_le_sum_of_card_le {s t : Finset ℕ} {f : ℕ → ℕ} (hcard : s.card ≤ t.card)
    (hle : ∀ x ∈ s \ t, ∀ y ∈ t \ s, f x ≤ f y) : ∑ x ∈ s, f x ≤ ∑ x ∈ t, f x := by
  rw [← Finset.sum_sdiff_le_sum_sdiff]
  calc ∑ x ∈ s \ t, f x
      ≤ (s \ t).card • (s \ t).sup f := Finset.sum_le_card_nsmul _ _ _ fun x hx => Finset.le_sup hx
    _ ≤ (t \ s).card • (s \ t).sup f := Nat.mul_le_mul_right _ (Finset.card_sdiff_le_card_sdiff_iff.2 hcard)
    _ ≤ ∑ x ∈ t \ s, f x :=
        Finset.card_nsmul_le_sum _ _ _ fun y hy => Finset.sup_le fun x hx => hle x hx y hy

/-! ### The collection, turn by turn -/

/-- The nodes in the collection when node `k` is made, as a set. -/
def live (ns : List Node) (k : Nat) : Finset ℕ := (liveBefore ns k).toFinset

section Merged

variable {n : Nat} {ns : List Node} {root : NodeIdx} {k x : Nat}

theorem mem_live (hk : k ≤ ns.length) : x ∈ live ns k ↔ x < k ∧ ∀ j < k, ¬ IsChild ns j x := by
  rw [live, List.mem_toFinset, mem_liveBefore_iff hk]

/-- Before the first turn the collection holds the leaves. -/
theorem TreeOk.live_leaves (ht : TreeOk n ns root) (hn : n ≤ ns.length) : live ns n = Finset.range n := by
  ext x
  rw [mem_live hn, Finset.mem_range, and_iff_left]
  intro j hj hc
  have := (ht.lt_of_isChild hc).1
  omega

theorem TreeOk.child_mem_live (ht : TreeOk n ns root) (hc : IsChild ns k x) : x ∈ live ns k := by
  obtain ⟨-, hxk, hk⟩ := ht.lt_of_isChild hc
  exact (mem_live hk.le).2 ⟨hxk, fun j hj hj' => hj.ne (ht.isChild_unique hj' hc)⟩

/-- A turn puts the new node into the collection and takes its two children out. -/
theorem TreeOk.insert_live (ht : TreeOk n ns root) {l r : Nat} (hk : k < ns.length)
    (hchild : ∀ x, IsChild ns k x ↔ x = l ∨ x = r) :
    insert l (insert r (live ns (k + 1))) = insert k (live ns k) := by
  have htaken {x : Nat} (hx : x = l ∨ x = r) : x ∈ live ns k := ht.child_mem_live ((hchild x).2 hx)
  ext x
  simp only [Finset.mem_insert]
  constructor
  · rintro (hx | hx | hx)
    · exact .inr (htaken (.inl hx))
    · exact .inr (htaken (.inr hx))
    · obtain ⟨hxk, hstay⟩ := (mem_live hk).1 hx
      obtain rfl | hlt : x = k ∨ x < k := by omega
      · exact .inl rfl
      · exact .inr ((mem_live hk.le).2 ⟨hlt, fun j hj => hstay j (by omega)⟩)
  · rintro (rfl | hx)
    · exact .inr (.inr ((mem_live hk).2 ⟨by omega, fun j hj hc => by have := ht.lt_of_isChild hc; omega⟩))
    · by_cases hc : IsChild ns k x
      · exact ((hchild x).1 hc).imp_right .inl
      · obtain ⟨hxk, hstay⟩ := (mem_live hk.le).1 hx
        refine .inr (.inr ((mem_live hk).2 ⟨by omega, fun j hj => ?_⟩))
        obtain rfl | hlt : j = k ∨ j < k := by omega
        · exact hc
        · exact hstay j hlt

/-- What a turn does to a sum over the collection. -/
theorem TreeOk.exists_turn (ht : TreeOk n ns root) (hnk : n ≤ k) (hk : k < ns.length) :
    ∃ l r, IsChild ns k l ∧ IsChild ns k r ∧ freqAt ns k = freqAt ns l + freqAt ns r ∧
      ∀ h : ℕ → ℕ, h l + h r + ∑ x ∈ live ns (k + 1), h x = h k + ∑ x ∈ live ns k, h x := by
  obtain ⟨l, r, hne, hchild, hfreq⟩ := ht.exists_children hk hnk
  have hl : IsChild ns k l := (hchild l).2 (.inl rfl)
  have hr : IsChild ns k r := (hchild r).2 (.inr rfl)
  have hout {x : Nat} (hx : IsChild ns k x) : x ∉ live ns (k + 1) := fun hmem =>
    ((mem_live hk).1 hmem).2 k (Nat.lt_succ_self k) hx
  have hnew : k ∉ live ns k := fun hmem => lt_irrefl k ((mem_live hk.le).1 hmem).1
  have hl' : l ∉ insert r (live ns (k + 1)) := by
    rw [Finset.mem_insert, not_or]
    exact ⟨hne, hout hl⟩
  refine ⟨l, r, hl, hr, hfreq, fun h => ?_⟩
  rw [add_assoc, ← Finset.sum_insert (hout hr), ← Finset.sum_insert hl', ht.insert_live hk hchild,
    Finset.sum_insert hnew]

/-- The collection loses one node at every turn. -/
theorem TreeOk.card_live (ht : TreeOk n ns root) (hnk : n ≤ k) (hk : k ≤ ns.length) :
    (live ns k).card + k = 2 * n := by
  induction k, hnk using Nat.le_induction with
  | base =>
    rw [ht.live_leaves hk, Finset.card_range]
    omega
  | succ k hnk ih =>
    obtain ⟨l, r, -, -, -, hsum⟩ := ht.exists_turn hnk hk
    have hone := hsum fun _ => 1
    have := ih (Nat.le_of_lt hk)
    simp only [Finset.sum_const, smul_eq_mul, mul_one] at hone
    omega

/-- The nodes in the collection weigh as much as the leaves, at every turn (R112). -/
theorem TreeOk.weight_live (ht : TreeOk n ns root) (hnk : n ≤ k) (hk : k ≤ ns.length) :
    ∑ x ∈ live ns k, freqAt ns x = ∑ x ∈ Finset.range n, freqAt ns x := by
  induction k, hnk using Nat.le_induction with
  | base => rw [ht.live_leaves hk]
  | succ k hnk ih =>
    obtain ⟨l, r, -, -, hfreq, hsum⟩ := ht.exists_turn hnk hk
    have hturn := hsum (freqAt ns)
    have := ih (Nat.le_of_lt hk)
    omega

/-! ### The cost of the turns -/

/-- The weight of the nodes in the collection, each times its depth. -/
def liveCost (ns : List Node) (d : Nat → Nat) (k : Nat) : Nat := ∑ x ∈ live ns k, freqAt ns x * d x

/-- A turn lowers the cost by the weight of the node it makes. -/
theorem TreeOk.liveCost_succ (ht : TreeOk n ns root) {d : Nat → Nat}
    (hd : IsDepth ns root d) (hnk : n ≤ k) (hk : k < ns.length) :
    liveCost ns d k = liveCost ns d (k + 1) + freqAt ns k := by
  obtain ⟨l, r, hl, hr, hfreq, hsum⟩ := ht.exists_turn hnk hk
  have hturn := hsum fun x => freqAt ns x * d x
  simp only [hd.atChild k l hl, hd.atChild k r hr, hfreq] at hturn
  unfold liveCost
  rw [hfreq]
  linarith

theorem TreeOk.liveCost_eq (ht : TreeOk n ns root) {d : Nat → Nat}
    (hd : IsDepth ns root d) {k' : Nat} (hnk : n ≤ k) (hkk : k ≤ k') (hk : k' ≤ ns.length) :
    liveCost ns d k = liveCost ns d k' + ∑ x ∈ Finset.Ico k k', freqAt ns x := by
  induction k', hkk using Nat.le_induction with
  | base => simp
  | succ j hkj ih =>
    rw [ih (Nat.le_of_lt hk), ht.liveCost_succ hd (hnk.trans hkj) hk, Finset.sum_Ico_succ_top hkj]
    omega

/-- Turns that at most halve the collection make nodes that together weigh no more than the leaves: a node made and
taken again is no heavier than one that stays throughout, and there are as many of these. -/
theorem MergedArena.sum_made_le (hm : MergedArena n ns) (ht : TreeOk n ns root) {k' : Nat} (hnk : n ≤ k)
    (hkk : k ≤ k') (hk : k' ≤ ns.length) (hhalf : 2 * (k' - k) ≤ 2 * n - k) :
    ∑ x ∈ Finset.Ico k k', freqAt ns x ≤ ∑ x ∈ Finset.range n, freqAt ns x := by
  rw [← ht.weight_live (hnk.trans hkk) hk]
  refine sum_le_sum_of_card_le ?_ fun x hx y hy => ?_
  · have := ht.card_live (hnk.trans hkk) hk
    rw [Nat.card_Ico]
    omega
  · rw [Finset.mem_sdiff, Finset.mem_Ico, mem_live hk] at hx hy
    obtain ⟨⟨hkx, hxk⟩, hxlive⟩ := hx
    obtain ⟨⟨hyk, hystay⟩, hymade⟩ := hy
    obtain ⟨j, hj, hchild⟩ : ∃ j < k', IsChild ns j x := by simpa [hxk] using hxlive
    obtain ⟨-, hxj, hjlt⟩ := ht.lt_of_isChild hchild
    have hylive : y ∈ liveBefore ns j :=
      (mem_liveBefore_iff hjlt.le).2 ⟨by omega, fun i hi => hystay i (hi.trans hj)⟩
    have hkey := hm.keyBefore_of_isChild ht hchild hylive (hystay j hj)
    unfold keyBefore at hkey
    omega

/-- When the collection has at most 2^m nodes, m halvings are left. -/
theorem MergedArena.liveCost_le (hm : MergedArena n ns) (ht : TreeOk n ns root) {d : Nat → Nat}
    (hd : IsDepth ns root d) (hn : n ≠ 0) (m : Nat) (hnk : n ≤ k) (hk : k ≤ ns.length) (hlive : 2 * n - k ≤ 2 ^ m) :
    liveCost ns d k ≤ m * ∑ x ∈ Finset.range n, freqAt ns x := by
  have hlen : ns.length = 2 * n - 1 := by rw [ht.size, nnode, if_neg hn]
  induction m generalizing k with
  | zero =>
    have hroot : ∀ x ∈ live ns k, freqAt ns x * d x = 0 := fun x hx => by
      obtain ⟨hxk, hstay⟩ := (mem_live hk).1 hx
      have hxroot : x = root.toNat := by
        by_contra hne
        obtain ⟨j, hj⟩ := ht.exists_isChild (hxk.trans_le hk) hne
        have := (ht.lt_of_isChild hj).2.2
        exact hstay j (by omega) hj
      rw [hxroot, hd.atRoot, mul_zero]
    rw [liveCost, Finset.sum_eq_zero hroot]
    exact Nat.zero_le _
  | succ m ih =>
    obtain hsmall | hlarge := Nat.le_total (2 * n - k) (2 ^ m)
    · exact (ih hnk hk hsmall).trans (Nat.mul_le_mul_right _ (Nat.le_succ m))
    · have hpos : 1 ≤ 2 ^ m := Nat.one_le_two_pow
      have hmade := hm.sum_made_le ht (k' := 2 * n - 2 ^ m) hnk (by omega) (by omega) (by omega)
      have hrest := ih (k := 2 * n - 2 ^ m) (by omega) (by omega) (by omega)
      rw [ht.liveCost_eq hd (k' := 2 * n - 2 ^ m) hnk (by omega) (by omega)]
      linarith

/-- The weight of the leaves, each times its depth, is at most eight times their weight. -/
theorem MergedArena.sum_depth_le (hm : MergedArena n ns) (ht : TreeOk n ns root) {d : Nat → Nat}
    (hd : IsDepth ns root d) (hn : n ≠ 0) :
    ∑ x ∈ Finset.range n, freqAt ns x * d x ≤ 8 * ∑ x ∈ Finset.range n, freqAt ns x := by
  have hlen : ns.length = 2 * n - 1 := by rw [ht.size, nnode, if_neg hn]
  have halphabet := ht.alphabet
  have hcost := hm.liveCost_le ht hd hn 8 (k := n) le_rfl (by omega) (by omega)
  rwa [liveCost, ht.live_leaves (by omega)] at hcost

end Merged

/-! ### The bits of a text -/

theorem sum_map_enumerateLeaves (freq : Table Nat) (h : Byte → Nat) :
    ((enumerateLeaves freq).map fun nd => nd.freq * h nd.sym).sum =
      (allSymbols.map fun b => tableGet freq b * h b).sum := by
  rw [enumerateLeaves]
  induction allSymbols with
  | nil => rfl
  | cons b bs ih =>
    by_cases hb : 1 ≤ tableGet freq b
    · simpa [hb, leafNode] using ih
    · have h0 : tableGet freq b = 0 := by omega
      simpa [h0] using ih

/-- What is summed over the symbols of a text is summed over all symbols, each by its count. -/
theorem sum_map_eq_sum_count (text : List Byte) (h : Byte → Nat) :
    (text.map h).sum = (allSymbols.map fun b => text.count b * h b).sum := by
  have hnodup : allSymbols.Nodup := allSymbols_ascending.imp BitVec.ne_of_lt
  rw [Finset.sum_list_map_count, ← List.sum_toFinset _ hnodup]
  refine Finset.sum_subset (fun b _ => List.mem_toFinset.2 (mem_allSymbols b)) fun b _ hb => ?_
  rw [List.mem_toFinset, ← List.count_eq_zero] at hb
  rw [hb, zero_smul]

/-- A sum over the built text is a sum over the first nodes of the published tree, each by its frequency. -/
theorem sum_map_built {text : List Byte} {s : State} (hfit : text.length ≤ s.lenW.lenMax) (h : Byte → Nat)
    {g : Nat → Nat} (hg : ∀ k (hk : k < (built text s).node.length), k < (built text s).nsym.toNat →
      h (built text s).node[k].sym = g k) :
    (text.map h).sum = ∑ k ∈ Finset.range (built text s).nsym.toNat, freqAt (built text s).node k * g k := by
  have hprefix := enumerateLeaves_prefix_built (s := s) hfit
  have hcount : (text.map h).sum = (allSymbols.map fun b => tableGet (built text s).freq b * h b).sum := by
    rw [sum_map_eq_sum_count]
    simp only [tableGet_built_freq]
  have hnsym := built_nsym_toNat text s
  rw [hcount, ← sum_map_enumerateLeaves, hnsym, Finset.sum_range, ← Fin.sum_univ_fun_getElem]
  refine Finset.sum_congr rfl fun k _ => ?_
  have hk : k.val < (built text s).node.length := k.isLt.trans_le hprefix.length_le
  rw [← hg k hk (by omega), freqAt_of_lt hk, hprefix.getElem k.isLt]

/-- The length of the built text's encoding is the sum of its code lengths. -/
theorem length_of_encodeCall_built {text bits : List Byte} {s : State} (hfit : text.length ≤ s.lenW.lenMax)
    (h : encodeCall (built text s) text = .ok bits) :
    bits.length = (text.map fun c => (tableGet (built text s).code c).len.toNat).sum := by
  rw [encodeCall_built hfit, Except.ok.injEq] at h
  rw [← h, List.length_flatMap]
  simp only [codeChars_length]

/-- With at most one distinct symbol every code has one bit. -/
theorem sum_len_le_of_few {text : List Byte} {s : State} (hfit : text.length ≤ s.lenW.lenMax)
    (hn : (built text s).nsym.toNat < 2) :
    (text.map fun c => (tableGet (built text s).code c).len.toNat).sum ≤ text.length := by
  have hs : Sound (built text s) := sound_built hfit
  have hone : ∀ m ∈ text.map fun c => (tableGet (built text s).code c).len.toNat, m ≤ 1 := by
    rw [List.forall_mem_map]
    intro c hc
    obtain ⟨hlen, hle⟩ := hs.table.code_length hs.tree (built_present hfit hc)
    omega
  simpa using List.sum_le_card_nsmul _ 1 hone

/-- With two distinct symbols or more the code lengths are the depths of the leaves. -/
theorem sum_len_le_of_many {text : List Byte} {s : State} (hfit : text.length ≤ s.lenW.lenMax)
    (hn : 2 ≤ (built text s).nsym.toNat) :
    (text.map fun c => (tableGet (built text s).code c).len.toNat).sum ≤ 8 * text.length := by
  have hs : Sound (built text s) := sound_built hfit
  have hn0 : (built text s).nsym.toNat ≠ 0 := by omega
  obtain ⟨d, hd⟩ := hs.tree.exists_isDepth hn0
  have hcost := sum_map_built hfit (fun c => (tableGet (built text s).code c).len.toNat) (g := d)
    fun k hk hkn => hs.table.len_eq_depth hd hn hk hkn
  have hweight := sum_map_built hfit (fun _ => 1) (g := fun _ => 1) fun _ _ _ => rfl
  simp only [List.map_const', List.sum_replicate, smul_eq_mul, mul_one] at hweight
  rw [hcost, hweight]
  exact hs.merged.sum_depth_le hs.tree hd hn0

/-- Settles O31: the bits of the text are as many as its code lengths add up to. -/
theorem compressionBound : Obligations.CompressionBound := by
  unfold Obligations.CompressionBound
  intro s t text bits hm hfit hrun hencode
  rw [execAll_build_of_fits hm hfit, Host.Outcome.next.injEq] at hrun
  subst hrun
  rw [length_of_encodeCall_built hfit hencode]
  obtain hfew | hmany := Nat.lt_or_ge (built text s).nsym.toNat 2
  · have := sum_len_le_of_few hfit hfew
    omega
  · exact sum_len_le_of_many hfit hmany

end Sys2Proof.Machine

/-! SUPPORT. No stuck state (60_exceptions.md R209, 70_reset_and_hazards.md R233) and the data commands under a pending
frame error (60_exceptions.md R203). -/

namespace Sys2Proof.Machine

/-! ### No stuck state -/

/-- Whatever the host does next, the step answers a next state (R233). -/
theorem exists_step_next (s : State) : ∃ t, step s = .next t := by
  cases hhost : s.host with
  | nil => exact ⟨s, by simp only [step, hhost]⟩
  | cons act rest =>
    cases act with
    | take => exact ⟨takeResponse { s with host := rest }, by simp only [step, hhost]⟩
    | rst => exact ⟨hostReset { s with host := rest }, by simp only [step, hhost]⟩
    | cmd w =>
      cases hdec : decode w with
      | ok i => exact ⟨_, (step_of_host_cmd hhost hdec).trans (exec_eq_effect i _)⟩
      | error e => exact ⟨_, step_of_illegal_word hhost hdec⟩

/-- No state rejects the command that closes its frame: it is legal in the state's mode and reads no register. -/
theorem rejected_closingCommand (s : State) : rejected (closingCommand s.mode) s = false := by
  cases hm : s.mode <;> simp [closingCommand, rejected, legalIn, hm]

theorem nextMode_closingCommand (m : Mode) : nextMode (closingCommand m) m = .idle := by cases m <;> rfl

/-- Settles O46: every act has a next state, and the closing command is executed, with its effect's mode. -/
theorem noStuckState : Obligations.NoStuckState := by
  unfold Obligations.NoStuckState
  refine ⟨exists_step_next, fun s => ⟨_, exec_of_not_rejected (rejected_closingCommand s), ?_⟩⟩
  rw [effect_mode, nextMode_closingCommand]

/-! ### A pending frame error -/

theorem exec_bldSym_of_error {s : State} (hm : s.mode = .build) (he : s.err ≠ 0) (c : Byte) :
    exec (.bldSym c) s = .next s := by
  rw [exec_bldSym hm, unlessError_eq, if_neg he]

/-- Settles O41, by the three data commands, each in the one mode it is legal in. -/
theorem pendingErrorIgnoresData : Obligations.PendingErrorIgnoresData := by
  unfold Obligations.PendingErrorIgnoresData
  intro i s hdata hl he
  cases i with
  | bldSym c => exact exec_bldSym_of_error (by simpa [legalIn] using hl) he c
  | encSym c => exact exec_encSym_of_error (by simpa [legalIn] using hl) he c
  | decBit c => exact exec_decBit_of_error (by simpa [legalIn] using hl) he c
  | _ => simp [isDataCommand] at hdata

end Sys2Proof.Machine

/-! SUPPORT. The host's acts that are no command, one rule each (30_encoding.md R90, 70_reset_and_hazards.md R221, R232),
and the build frame of the empty text (R220). -/

namespace Sys2Proof.Machine

/-! ### Waiting, taking and reset -/

theorem step_of_no_act {s : State} (hhost : s.host = []) : step s = .next s := by simp only [step, hhost]

theorem step_of_host_take {s : State} {rest : List HostAct} (hhost : s.host = .take :: rest) :
    step s = .next (takeResponse { s with host := rest }) := by simp only [step, hhost]

theorem step_of_host_rst {s : State} {rest : List HostAct} (hhost : s.host = .rst :: rest) :
    step s = .next (hostReset { s with host := rest }) := by simp only [step, hhost]

theorem takeResponse_of_rsp_eq_cons {s : State} {v : Word} {vs : List Word} (hrsp : s.rsp = v :: vs) :
    takeResponse s = { s with rsp := vs } := by rw [takeResponse, hrsp, List.tail_cons]

theorem takeResponse_of_rsp_eq_nil {s : State} (hrsp : s.rsp = []) : takeResponse s = s := by
  rw [takeResponse, hrsp, List.tail_nil, ← hrsp]

/-- Settles O5, by the rule of each act; a take has two cases, by whether a response is there. -/
theorem hostActs : Obligations.HostActs := by
  unfold Obligations.HostActs
  refine ⟨fun s => step_of_no_act, fun s rest v vs hhost hrsp => ?_, fun s rest hhost hrsp => ?_,
    fun s rest hhost => ⟨_, step_of_host_rst hhost, hostReset_lenW _, hostReset_host _⟩⟩
  · exact (step_of_host_take hhost).trans (congrArg _ (takeResponse_of_rsp_eq_cons hrsp))
  · exact (step_of_host_take hhost).trans (congrArg _ (takeResponse_of_rsp_eq_nil hrsp))

/-- Settles O6: the state reset leads to is the one the machine starts in, but for the host's later acts. -/
theorem resetSetsEveryElement : Obligations.ResetSetsEveryElement := by
  unfold Obligations.ResetSetsEveryElement
  intro s rest hhost
  obtain ⟨hmode, herr, hfault, hfreq, hwlen, hnsym, hnode, hroot, htextLen, hcode, hcur⟩ := resetStateValues s.lenW
  exact ⟨_, step_of_host_rst hhost, hmode, herr, hfault, hfreq, hwlen, hnsym, hnode, hroot, htextLen, hcode, hcur,
    hostReset_rsp _⟩

/-! ### The empty build frame -/

theorem afterCounting_nil (s : State) : afterCounting [] s = effect .bldBegin s := by
  rw [afterCounting, countText, addText_nil]
  rfl

/-- With nothing counted, publication puts every published element at its reset value. -/
theorem built_nil (s : State) :
    built [] s = { State.resetWith s.lenW with fault := s.fault, host := s.host, rsp := s.rsp ++ [0x3000] } := by
  have hfreq (b : Byte) : tableGet (effect .bldBegin s).freq b = 0 := tableGet_replicate b 0
  rw [built, afterCounting_nil, buildAndPublish_of_no_symbol hfreq rfl]
  rfl

/-- Settles O58: the empty text fits every `LEN_W`, and the state it builds is the reset state. -/
theorem emptyBuildFrameNearlyResets : Obligations.EmptyBuildFrameNearlyResets := by
  unfold Obligations.EmptyBuildFrameNearlyResets
  intro s hmode
  rw [execAll_build_of_fits hmode (Nat.zero_le _), built_nil]

end Sys2Proof.Machine
